-- ==== Sys2Proof/Word.lean ====
section
/-! DEFINITION. The words of the hardware (spec/00_scope.md R11, spec/30_encoding.md R70 to R76): bytes, frames, values and
indices as bit vectors, bit 0 the least significant; a line level is a Bool, true for 1 (high). -/

namespace Sys2Proof

/-- A DigitPattern (R70), a DigitSelectMask (R72) or any 8-bit operand. -/
abbrev Byte := BitVec 8

/-- A decimal digit as the 4-bit port and registers carry it (R21, R25). -/
abbrev Digit := BitVec 4

/-- A digit index, 0 the leftmost (R28, R75). -/
abbrev Position := BitVec 2

/-- A DisplayValue on the 16-bit port `value` (R74). -/
abbrev Value := BitVec 16

/-- FRAME16 (R73): segments in bits 15 to 8, digit select in bits 7 to 0. -/
abbrev Frame := BitVec 16

/-- A request word, wide enough for every format of R76, unused high bits 0. -/
abbrev RequestWord := BitVec 24

end Sys2Proof
end

