-- ==== Sys2Proof/Config.lean ====
section
/-! DEFINITION. The parameters of spec/00_scope.md R9 and R10 and the free values the spec leaves open. An `opaque` constant has
no body: nothing can be proved about what it is, so a claim holds whatever it is. -/

namespace Sys2Proof.Config

/-- `SEG_CC`, the common-cathode table, digits 0 to 9 in order (R92, decision D11). PRESUMED, unsafe: the ten bytes are the
spec's default, from general knowledge and not from the source (log 5). -/
def segCC : List Byte :=
  [0x3F, 0x06, 0x5B, 0x4F, 0x66, 0x6D, 0x7D, 0x07, 0x7F, 0x6F]

/-- `DSEL[0..3]`, the digit-select masks, leftmost to rightmost (R9, R51). -/
def dselTable : List Byte :=
  [0x01, 0x02, 0x04, 0x08]

/-- `T_DWELL` in milliseconds (R9). -/
def tDwellMs : Nat := 2

/-- `T_DEBOUNCE` in milliseconds (R9). -/
def tDebounceMs : Nat := 200

/-- `SEC_MOD`, the wrap point of `seconds` (R9). -/
def secMod : Nat := 60

/-- `MIN_MOD`, the wrap point of `minutes` (R9). -/
def minMod : Nat := 100

/-- `V_REF_MV`, full scale of the analog input in millivolts (R9). -/
def vRefMv : Nat := 3300

/-- One less than `DWELL_CYCLES`: open, because `F_CLK` is (D13, log 9). -/
opaque dwellCyclesLessOne : Nat

/-- `DWELL_CYCLES`, a positive integer and otherwise open (R10, D13, log 9). -/
def dwellCycles : Nat := dwellCyclesLessOne + 1

/-- What the conversion answers where the spec fixes nothing (R148, D22, log 8). -/
opaque adcRaw : BitVec 16 → Nat

/-- Which samples "normalize to 2.750 V": open, since the divisor is (R148, log 8). -/
opaque normalizesTo2750 : BitVec 16 → Bool

/-- `ADC_TO_MV` with the three properties R148 states and nothing more: an integer in [0, 3300], 0 for sample 0, 2750 for a
sample that normalizes to 2.750 V (D22, log 8). -/
def adcToMv (a : BitVec 16) : Nat :=
  if a = 0 then 0
  else if normalizesTo2750 a then 2750
  else min (adcRaw a) vRefMv

/-- `ENC_OOR` as a draw: the byte the encoder answers for a digit 10 to 15, one for each draw (R96, D10, log 6). -/
opaque freeByte : Nat → Byte

/-- The digit a register R43 calls unspecified holds after `rst` (U7, log 7). -/
opaque freeDigit : Nat → Digit

/-- The level `dp_en_r` holds after `rst` (R43, U7, log 7). -/
opaque freeLevel : Nat → Bool

/-- What `dp_pos_r` holds after `rst` (R43, U7, log 7). -/
opaque freePosition : Nat → Position

/-- What `frame` holds after `rst` (R43, U7, log 7). -/
opaque freeFrame : Nat → Frame

/-- The level of `resetButton` at a sampling point, 0 (false) when pressed (R42, D23, log 10). -/
opaque oracleResetButton : Nat → Bool

/-- The level of `modeButton` at a sampling point, 0 (false) when pressed (R42, D23, log 10). -/
opaque oracleModeButton : Nat → Bool

/-- The analog sample at a sampling point (R42, log 10). -/
opaque oracleSample : Nat → BitVec 16

/-- How many ticks fall in the stretch of an iteration numbered by the second argument (R151, D24, log 11). -/
opaque oracleTicks : Nat → Nat → Nat

end Sys2Proof.Config
end

