-- ==== Sys2Proof/Syntax.lean ====
section
/-! DEFINITION. The operations: one constructor for each row of spec/opcode_table.json, its operands the row's fields
(spec/30_encoding.md R76, R80). -/

namespace Sys2Proof

inductive Instr where
  /-- ENCODE `d` (R93). -/
  | encode (d : Digit)
  /-- APPLY_DP `p` (R94). -/
  | applyDp (p : Byte)
  /-- ENCODE_DP `d, e` (R95), `e` asking for the decimal point. -/
  | encodeDp (e : Bool) (d : Digit)
  /-- SHIFT_BIT `b` (R101). -/
  | shiftBit (b : Bool)
  /-- SHIFT_BYTE `w` (R102). -/
  | shiftByte (w : Byte)
  /-- SEND `s, m` (R104). -/
  | send (s m : Byte)
  /-- DECOMPOSE `v` (R121); bits 18 to 16 of its word are carried and ignored (R76). -/
  | decompose (x : BitVec 3) (v : Value)
  /-- RENDER `v, {e, p}` (R123). -/
  | render (e : Bool) (p : Position) (v : Value)
  /-- TK_ADVANCE (R141). -/
  | tkAdvance
  /-- TK_RESET (R142). -/
  | tkReset
  /-- ARB_ITERATE (R145). -/
  | arbIterate
  /-- SEG_0 (R92): the pattern of digit 0; `p` is bit 7, 0 when the point is lit. So for the nine after it. -/
  | seg0 (p : Bool)
  | seg1 (p : Bool)
  | seg2 (p : Bool)
  | seg3 (p : Bool)
  | seg4 (p : Bool)
  | seg5 (p : Bool)
  | seg6 (p : Bool)
  | seg7 (p : Bool)
  | seg8 (p : Bool)
  | seg9 (p : Bool)
  /-- DSEL_0 (R51): the select mask of digit index 0. So for the three after it. -/
  | dsel0
  | dsel1
  | dsel2
  | dsel3
  deriving DecidableEq, Repr

end Sys2Proof
end

