-- ==== Sys2Proof/WellFormed.lean ====
section
/-! DEFINITION. Legal operands (spec/30_encoding.md R82). Every operand of `Instr` fits its field by its type; the one operand
value the spec calls illegal is an encoder digit above 9. It traps nowhere (R96), so decoding and execution accept it too:
this check only names it. -/

namespace Sys2Proof

/-- A digit the encoder's table has an entry for (R50, R93). -/
def legalDigit (d : Digit) : Bool := decide (d.toNat ≤ 9)

/-- The operands are ones the spec calls legal (R82, R96). -/
def Instr.wellFormed (i : Instr) : Bool :=
  match i with
  | .encode d => legalDigit d
  | .encodeDp _ d => legalDigit d
  | .applyDp _ => true
  | .shiftBit _ => true
  | .shiftByte _ => true
  | .send _ _ => true
  | .decompose _ _ => true
  | .render _ _ _ => true
  | .tkAdvance => true
  | .tkReset => true
  | .arbIterate => true
  | .seg0 _ => true
  | .seg1 _ => true
  | .seg2 _ => true
  | .seg3 _ => true
  | .seg4 _ => true
  | .seg5 _ => true
  | .seg6 _ => true
  | .seg7 _ => true
  | .seg8 _ => true
  | .seg9 _ => true
  | .dsel0 => true
  | .dsel1 => true
  | .dsel2 => true
  | .dsel3 => true

end Sys2Proof
end

