-- ==== Sys2Proof/Decode.lean ====
section
/-! DEFINITION. Request words (spec/30_encoding.md R76, R80, opcode_table.json). There is no opcode field: "an operation is
selected by which request line is asserted", so the decoder takes that selection beside the word. A row is a width, a mask and
the bits fixed under the mask; a word outside the width or with other fixed bits is no word of the row and is refused by name. -/

namespace Sys2Proof

/-- What selects the operation: one for each row of the table (the "selected_by" column of R80, log 2). -/
inductive Select where
  | encode
  | applyDp
  | encodeDp
  | shiftBit
  | shiftByte
  | send
  | decompose
  | render
  | tkAdvance
  | tkReset
  | arbIterate
  | seg0
  | seg1
  | seg2
  | seg3
  | seg4
  | seg5
  | seg6
  | seg7
  | seg8
  | seg9
  | dsel0
  | dsel1
  | dsel2
  | dsel3
  deriving DecidableEq, Repr

/-- Why a word is no word of the selected row. -/
inductive Reject where
  /-- A bit at or above the row's width is set. -/
  | tooWide
  /-- A bit the row fixes has the other value. -/
  | fixedBits
  deriving DecidableEq, Repr

/-- The encoding columns of one row of opcode_table.json. -/
structure Row where
  width : Nat
  mask : RequestWord
  pattern : RequestWord
  deriving DecidableEq, Repr

/-- The row of opcode_table.json a selection stands for. -/
def Select.row (k : Select) : Row :=
  match k with
  | .encode => ⟨5, 0x10, 0x00⟩
  | .applyDp => ⟨8, 0x00, 0x00⟩
  | .encodeDp => ⟨5, 0x00, 0x00⟩
  | .shiftBit => ⟨1, 0x0, 0x0⟩
  | .shiftByte => ⟨8, 0x00, 0x00⟩
  | .send => ⟨16, 0x0000, 0x0000⟩
  | .decompose => ⟨19, 0x00000, 0x00000⟩
  | .render => ⟨19, 0x00000, 0x00000⟩
  | .tkAdvance => ⟨0, 0, 0⟩
  | .tkReset => ⟨0, 0, 0⟩
  | .arbIterate => ⟨0, 0, 0⟩
  | .seg0 => ⟨8, 0x7F, 0x40⟩
  | .seg1 => ⟨8, 0x7F, 0x79⟩
  | .seg2 => ⟨8, 0x7F, 0x24⟩
  | .seg3 => ⟨8, 0x7F, 0x30⟩
  | .seg4 => ⟨8, 0x7F, 0x19⟩
  | .seg5 => ⟨8, 0x7F, 0x12⟩
  | .seg6 => ⟨8, 0x7F, 0x02⟩
  | .seg7 => ⟨8, 0x7F, 0x78⟩
  | .seg8 => ⟨8, 0x7F, 0x00⟩
  | .seg9 => ⟨8, 0x7F, 0x10⟩
  | .dsel0 => ⟨8, 0xFF, 0x01⟩
  | .dsel1 => ⟨8, 0xFF, 0x02⟩
  | .dsel2 => ⟨8, 0xFF, 0x04⟩
  | .dsel3 => ⟨8, 0xFF, 0x08⟩

/-- The operands of the selected operation, at the bit positions of its row. -/
def Select.operands (k : Select) (w : RequestWord) : Instr :=
  match k with
  | .encode => .encode (w.extractLsb' 0 4)
  | .applyDp => .applyDp (w.extractLsb' 0 8)
  | .encodeDp => .encodeDp (w.getLsbD 4) (w.extractLsb' 0 4)
  | .shiftBit => .shiftBit (w.getLsbD 0)
  | .shiftByte => .shiftByte (w.extractLsb' 0 8)
  | .send => .send (w.extractLsb' 8 8) (w.extractLsb' 0 8)
  | .decompose => .decompose (w.extractLsb' 16 3) (w.extractLsb' 0 16)
  | .render => .render (w.getLsbD 18) (w.extractLsb' 16 2) (w.extractLsb' 0 16)
  | .tkAdvance => .tkAdvance
  | .tkReset => .tkReset
  | .arbIterate => .arbIterate
  | .seg0 => .seg0 (w.getLsbD 7)
  | .seg1 => .seg1 (w.getLsbD 7)
  | .seg2 => .seg2 (w.getLsbD 7)
  | .seg3 => .seg3 (w.getLsbD 7)
  | .seg4 => .seg4 (w.getLsbD 7)
  | .seg5 => .seg5 (w.getLsbD 7)
  | .seg6 => .seg6 (w.getLsbD 7)
  | .seg7 => .seg7 (w.getLsbD 7)
  | .seg8 => .seg8 (w.getLsbD 7)
  | .seg9 => .seg9 (w.getLsbD 7)
  | .dsel0 => .dsel0
  | .dsel1 => .dsel1
  | .dsel2 => .dsel2
  | .dsel3 => .dsel3

/-- The operation a selection and a word ask for, or why the word is none of the row's. -/
def decode (k : Select) (w : RequestWord) : Except Reject Instr :=
  if 2 ^ k.row.width ≤ w.toNat then .error .tooWide
  else if w &&& k.row.mask ≠ k.row.pattern then .error .fixedBits
  else .ok (k.operands w)

/-- The word of a SEG row: bit 7 the point's drive, bits 6 to 0 as the row fixes them. -/
def segWord (p : Bool) (low : BitVec 7) : RequestWord :=
  (BitVec.ofBool p ++ low).setWidth 24

/-- The selection and the word of an operation (R76, opcode_table.json). -/
def encode (i : Instr) : Select × RequestWord :=
  match i with
  | .encode d => (.encode, d.setWidth 24)
  | .applyDp p => (.applyDp, p.setWidth 24)
  | .encodeDp e d => (.encodeDp, (BitVec.ofBool e ++ d).setWidth 24)
  | .shiftBit b => (.shiftBit, (BitVec.ofBool b).setWidth 24)
  | .shiftByte w => (.shiftByte, w.setWidth 24)
  | .send s m => (.send, (s ++ m).setWidth 24)
  | .decompose x v => (.decompose, (x ++ v).setWidth 24)
  | .render e p v => (.render, (BitVec.ofBool e ++ p ++ v).setWidth 24)
  | .tkAdvance => (.tkAdvance, 0)
  | .tkReset => (.tkReset, 0)
  | .arbIterate => (.arbIterate, 0)
  | .seg0 p => (.seg0, segWord p 0x40)
  | .seg1 p => (.seg1, segWord p 0x79)
  | .seg2 p => (.seg2, segWord p 0x24)
  | .seg3 p => (.seg3, segWord p 0x30)
  | .seg4 p => (.seg4, segWord p 0x19)
  | .seg5 p => (.seg5, segWord p 0x12)
  | .seg6 p => (.seg6, segWord p 0x02)
  | .seg7 p => (.seg7, segWord p 0x78)
  | .seg8 p => (.seg8, segWord p 0x00)
  | .seg9 p => (.seg9, segWord p 0x10)
  | .dsel0 => (.dsel0, 0x01)
  | .dsel1 => (.dsel1, 0x02)
  | .dsel2 => (.dsel2, 0x04)
  | .dsel3 => (.dsel3, 0x08)

/-- The first selection of the list whose row has the word. -/
def firstSelect (w : RequestWord) : List Select → Option Select
  | [] => none
  | k :: rest => if w &&& k.row.mask = k.row.pattern ∧ w.toNat < 2 ^ k.row.width then some k else firstSelect w rest

/-- The rows a word of one byte may belong to, those that fix most bits first (log 2). -/
def byteRows : List Select :=
  [.dsel0, .dsel1, .dsel2, .dsel3, .seg0, .seg1, .seg2, .seg3, .seg4, .seg5, .seg6, .seg7, .seg8, .seg9,
    .encode, .encodeDp, .applyDp]

/-- The selection taken for a bare word of `nbits` bits, where nothing says which request line is asserted (DESIGN CHOICE,
log 2): the table's words overlap, so a row that fixes more bits is taken before one that fixes fewer, an operation on a
port before an internal one, and ARB_ITERATE, which runs forever (R145), for the empty word. -/
def tableSelect (nbits : Nat) (w : RequestWord) : Select :=
  if nbits = 0 then .arbIterate
  else if nbits = 1 then .shiftBit
  else if nbits = 5 then (firstSelect w [.encode]).getD .encodeDp
  else if nbits ≤ 8 then (firstSelect w byteRows).getD .applyDp
  else if nbits ≤ 16 then .send
  else .render

/-- A bare word as a request; a number no request word holds becomes the all-ones word, which the rows taken here refuse. -/
def tableRequest (nbits w : Nat) : Select × RequestWord :=
  let word : RequestWord := if w < 2 ^ 24 then BitVec.ofNat 24 w else BitVec.allOnes 24
  (tableSelect nbits word, word)

/-- The instruction the decoder reads from a bare word of the table (log 2). -/
def decodeTableWord (nbits w : Nat) : Option Instr :=
  match decode (tableRequest nbits w).1 (tableRequest nbits w).2 with
  | .ok i => some i
  | .error _ => none

end Sys2Proof
end

