-- ==== Sys2Proof/Machine/State.lean ====
section
/-! DEFINITION. The state of the machine (spec/10_state.md), as plain data: the block's registers, its encoder output, the
receiver, the environment, the ghost log and, last, the fields that are the model's own. -/

namespace Sys2Proof.Machine

/-- The three output lines (R20). -/
inductive Line where
  | latch
  | clock
  | data
  deriving DecidableEq, Repr

/-- What the ghost log records: one `PinWrite` (R100), or one elapsed `Wait` with its nominal duration (R12). -/
inductive Event where
  | pin (line : Line) (level : Bool)
  | wait (ms : Nat)
  deriving DecidableEq, Repr

/-- The seven values of `phase` (R27). -/
inductive Phase where
  | idle
  | latchLo
  | dataOut
  | clkHi
  | clkLo
  | latchHi
  | dwell
  deriving DecidableEq, Repr

/-- `digits[0..3]` (R25): `d0` is index 0, the thousands. -/
structure Digits where
  d0 : Digit
  d1 : Digit
  d2 : Digit
  d3 : Digit
  deriving DecidableEq, Repr

/-- The levels on the block's input ports in one cycle of `clk` (R21). -/
structure Ports where
  rst : Bool
  start : Bool
  value : Value
  dpEn : Bool
  dpPos : Position
  sndStart : Bool
  sndSegments : Byte
  sndDigitSelect : Byte
  encDigit : Digit
  encDp : Bool
  deriving DecidableEq, Repr

/-- What one iteration of the control loop meets outside (R42, R151): the two button levels (0, false, when pressed), the
analog sample, and how many ticks fall before TK_RESET, from there to the read of ClockState, and after that read. -/
structure ArbInputs where
  ticksBeforeReset : Nat
  resetButton : Bool
  ticksBeforeRead : Nat
  modeButton : Bool
  sample : BitVec 16
  ticksAfterRead : Nat
  deriving DecidableEq, Repr

/-- What the outside does next (R175, log 3): it asks for one operation (event level), or gives one rising edge of `clk` with
the port levels of that cycle (cycle level). -/
inductive Action where
  | op (select : Select) (word : RequestWord)
  | clk (ports : Ports)
  deriving DecidableEq, Repr

structure State where
  /-- Pin registers (R24). -/
  latch : Bool
  clock : Bool
  data : Bool
  /-- Operand registers of a pass (R25). -/
  digits : Digits
  dpEnR : Bool
  dpPosR : Position
  /-- Frame register (R26). -/
  frame : Frame
  /-- Sequencer state (R27 to R29). -/
  phase : Phase
  digitIdx : Position
  bitIdx : BitVec 4
  raw : Bool
  dwellCnt : Nat
  /-- The status pulse `done` (R31). -/
  done : Bool
  /-- The level of the combinational output `enc_pattern` for the operand last presented (R21, R95). -/
  encPattern : Byte
  /-- The receiver's shift stage and output stage (R36). -/
  sr : BitVec 16
  out : BitVec 16
  /-- ClockState (R40). -/
  seconds : Nat
  minutes : Nat
  /-- Pin writes and elapsed waits since reset, oldest first; its pin writes are the ghost `trace` (R39). -/
  log : List Event
  /-- The model's own: the byte the last value-returning operation answered (log 23). -/
  result : Byte
  /-- The model's own: how many free values have been drawn (log 6). -/
  draws : Nat
  /-- The model's own: environment inputs fixed in advance, oldest first (log 10). -/
  script : List ArbInputs
  /-- The model's own: what the outside does next, oldest first (log 3). -/
  schedule : List Action
  deriving DecidableEq, Repr

/-- No fault exists in this hardware (spec/60_exceptions.md R160, R162, log 24): nothing raises one. -/
inductive Fault where
  deriving DecidableEq, Repr

/-- Why a step has no meaning. -/
inductive Refusal where
  /-- Raised by no arm of `exec`: every operation of the table has its meaning. Safe: a run stops. -/
  | notModelled (mnemonic : String)
  /-- Raised by `step` for a scheduled word with a bit set outside its row's width; it is no request word (R76). Safe. -/
  | wordTooWide
  /-- Raised by `step` for a scheduled word whose fixed bits are not its row's; it is no request word (R76). Safe. -/
  | wordFixedBits
  deriving DecidableEq, Repr

/-- The machine right after reset (R43, R44). DESIGN CHOICE, unsafe (log 4): the registers the spec leaves unspecified
(`digits`, `dpEnR`, `dpPosR`, `frame`, `sr`, `out`) and the model's own fields hold zero, `encPattern` the encoder's answer to
an all-zero port. -/
def State.reset : State where
  latch := false
  clock := false
  data := false
  digits := ⟨0, 0, 0, 0⟩
  dpEnR := false
  dpPosR := 0
  frame := 0
  phase := .idle
  digitIdx := 0
  bitIdx := 0
  raw := false
  dwellCnt := 0
  done := false
  encPattern := 0xC0
  sr := 0
  out := 0
  seconds := 0
  minutes := 0
  log := []
  result := 0
  draws := 0
  script := []
  schedule := []

end Sys2Proof.Machine
end

