-- ==== Sys2Proof/Machine/Ops.lean ====
section
/-! DEFINITION. Operations every meaning is built from: the pin write with the receiver's reaction to it, the wait, the
constant tables and the free values. There is no exception to take and no memory to write (spec/60_exceptions.md R160, R167;
spec/10_state.md R35). -/

namespace Sys2Proof.Machine

/-- The receiver's shift stage after a write of `level` to `line` (R109): it takes `data` in at bit 0 on a rising edge of
`clock`, and on nothing else. -/
def shiftStage (line : Line) (level : Bool) (s : State) : BitVec 16 :=
  match line with
  | .clock => if level && !s.clock then s.sr.extractLsb' 0 15 ++ BitVec.ofBool s.data else s.sr
  | .latch => s.sr
  | .data => s.sr

/-- The receiver's output stage after a write of `level` to `line` (R110): it takes the shift stage on a rising edge of
`latch`, and on nothing else. -/
def outputStage (line : Line) (level : Bool) (s : State) : BitVec 16 :=
  match line with
  | .latch => if level && !s.latch then s.sr else s.out
  | .clock => s.out
  | .data => s.out

/-- `PinWrite(line, level)` (R12, R100): the line takes the level, the event is recorded even when the level repeats, and the
receiver reacts to the edge. -/
def pinWrite (line : Line) (level : Bool) (s : State) : State :=
  { s with
    latch := if line = .latch then level else s.latch
    clock := if line = .clock then level else s.clock
    data := if line = .data then level else s.data
    sr := shiftStage line level s
    out := outputStage line level s
    log := s.log ++ [.pin line level] }

/-- `Wait(t)` (R12): no pin write; the log records the nominal duration (log 14). -/
def waitMs (ms : Nat) (s : State) : State :=
  { s with log := s.log ++ [.wait ms] }

/-- `MemRead(SEG, d)` (R50): the complement of the common-cathode pattern, defined for digits 0 to 9 only. -/
def segRead (d : Digit) : Option Byte :=
  (Config.segCC[d.toNat]?).map (fun p => ~~~p)

/-- `MemRead(DSEL, i)` (R51). -/
def dselRead (i : Position) : Byte :=
  Config.dselTable.getD i.toNat 0

/-- The registers R43 calls unspecified, each with a value of its own that nothing constrains (U7, log 7). -/
def drawOperandRegisters (s : State) : State :=
  { s with
    digits := ⟨Config.freeDigit s.draws, Config.freeDigit (s.draws + 1), Config.freeDigit (s.draws + 2),
      Config.freeDigit (s.draws + 3)⟩
    dpEnR := Config.freeLevel s.draws
    dpPosR := Config.freePosition s.draws
    frame := Config.freeFrame s.draws
    draws := s.draws + 4 }

/-- The inputs the oracles give to the iteration that draws number `n` (R42, R151, logs 10 and 11). -/
def oracleInputs (n : Nat) : ArbInputs where
  ticksBeforeReset := Config.oracleTicks n 0
  resetButton := Config.oracleResetButton n
  ticksBeforeRead := Config.oracleTicks n 1
  modeButton := Config.oracleModeButton n
  sample := Config.oracleSample n
  ticksAfterRead := Config.oracleTicks n 2

/-- The inputs of the next iteration: the oldest scripted ones, or oracle values when none is scripted (log 10). -/
def nextInputs (s : State) : ArbInputs :=
  match s.script with
  | [] => oracleInputs s.draws
  | inp :: _ => inp

/-- The state once `nextInputs` has been taken. -/
def takeInputs (s : State) : State :=
  match s.script with
  | [] => { s with draws := s.draws + 1 }
  | _ :: rest => { s with script := rest }

end Sys2Proof.Machine
end

