-- ==== Sys2Proof/Machine/Operands.lean ====
section
/-! DEFINITION. Operand assembly (spec/30_encoding.md R77 to R79): the byte an encoder request answers, the digits of a value,
the frame of a slot, and the values the environment shows. -/

namespace Sys2Proof.Machine

/-- APPLY_DP (R94): bit 7 cleared. -/
def clearPoint (p : Byte) : Byte := p &&& 0x7F

/-- ENCODE_DP (R93, R95): the table's pattern, with its point lit when `dp` asks for it; for a digit 10 to 15 the whole byte is
unspecified (R96), so it is the free value given. -/
def encoderByte (d : Digit) (dp : Bool) (free : Byte) : Byte :=
  match segRead d with
  | some p => if dp then clearPoint p else p
  | none => free

/-- The encoder's answer in a state: a digit outside the table draws the next free byte (R96, log 6). -/
def encoderAnswer (d : Digit) (dp : Bool) (s : State) : Byte :=
  encoderByte d dp (Config.freeByte s.draws)

/-- How many free values have been drawn once the encoder has answered for `d`. -/
def drawsAfterEncode (d : Digit) (s : State) : Nat :=
  match segRead d with
  | some _ => s.draws
  | none => s.draws + 1

/-- One decimal digit of a value: `(v / k) mod 10` (R77). -/
def decimalDigit (v : Value) (k : Nat) : Digit :=
  BitVec.ofNat 4 (v.toNat / k % 10)

/-- DECOMPOSE (R77, R121): thousands, hundreds, tens, units. -/
def digitsOf (v : Value) : Digits :=
  ⟨decimalDigit v 1000, decimalDigit v 100, decimalDigit v 10, decimalDigit v 1⟩

/-- `digits[i]` (R25). -/
def digitAt (ds : Digits) (i : Position) : Digit :=
  if i = 0 then ds.d0 else if i = 1 then ds.d1 else if i = 2 then ds.d2 else ds.d3

/-- Whether the point of digit index `i` is asked for (R78, R122). -/
def pointAt (en : Bool) (pos i : Position) : Bool := en && decide (i = pos)

/-- The frame of the slot `digit_idx` (R78, R122): the digit's pattern and its select mask. -/
def slotFrame (s : State) : Frame :=
  encoderAnswer (digitAt s.digits s.digitIdx) (pointAt s.dpEnR s.dpPosR s.digitIdx) s ++ dselRead s.digitIdx

/-- The value of Time mode, packed MMSS (R79, R147). -/
def timeValue (seconds minutes : Nat) : Value := BitVec.ofNat 16 (minutes * 100 + seconds)

/-- The value of Voltage mode, in millivolts (R79, R148). -/
def voltageValue (sample : BitVec 16) : Value := BitVec.ofNat 16 (Config.adcToMv sample)

end Sys2Proof.Machine
end

