-- ==== Sys2Proof/Machine/Flags.lean ====
section
/-! DEFINITION. The status outputs (spec/10_state.md R30, R31) and the pin trace (R39). No operation reads a flag or writes one
as a side effect. -/

namespace Sys2Proof.Machine

/-- `busy = (phase != IDLE)` (R30). -/
def State.busy (s : State) : Bool := decide (s.phase ≠ .idle)

/-- What a request does to the block's operation registers and lines: `f` in an idle block, nothing while an operation is in
progress, which only `rst` interrupts (R86, R128). -/
def whenIdle (f : State → State) (s : State) : State :=
  if s.phase = .idle then f s else s

/-- `done` after an edge that took the sequencer from one phase to the next without `rst` (R31): 1 in exactly the first idle
cycle after an operation. -/
def doneAfter (before after : Phase) : Bool := decide (before ≠ .idle) && decide (after = .idle)

/-- The pin write of a log entry, if it is one. -/
def Event.pinEvent (e : Event) : Option (Line × Bool) :=
  match e with
  | .pin line level => some (line, level)
  | .wait _ => none

/-- The ghost `trace` (R39): the pin writes since reset, in order. -/
def State.trace (s : State) : List (Line × Bool) := s.log.filterMap Event.pinEvent

end Sys2Proof.Machine
end

