-- ==== Sys2Proof/Machine/Display.lean ====
section
/-! DEFINITION. What a person sees, and the inverse maps of the two data formats (spec/41_shift_register_driver.md R111,
spec/30_encoding.md R81). Nothing of the machine reads these; observations are stated in them. -/

namespace Sys2Proof.Machine

/-- Segment `j` (0 = a to 6 = g, 7 = dp) of digit position `k` is lit by the receiver's output stage (R111). -/
def lit (out : BitVec 16) (k : Position) (j : BitVec 3) : Bool :=
  out.getLsbD k.toNat && !out.getLsbD (8 + j.toNat)

/-- The decimal point of a pattern is lit: bit 7 is 0 (R81). -/
def pointLit (p : Byte) : Bool := !p.getLsbD 7

/-- The first digit of the list whose pattern is `p`. -/
def findDigit (p : Byte) : List Digit → Option Digit
  | [] => none
  | d :: rest => if segRead d = some p then some d else findDigit p rest

/-- The digit a pattern shows, whatever its point, if it is a decimal digit (R81). -/
def shownDigit (p : Byte) : Option Digit :=
  findDigit (p ||| 0x80) [0, 1, 2, 3, 4, 5, 6, 7, 8, 9]

/-- The position a select byte shows, if it is one of the four masks (R81). -/
def shownPosition (m : Byte) : Option Position :=
  if m = dselRead 0 then some 0
  else if m = dselRead 1 then some 1
  else if m = dselRead 2 then some 2
  else if m = dselRead 3 then some 3
  else none

end Sys2Proof.Machine
end

