-- ==== Sys2Proof/Machine/Encoder.lean ====
section
/-! DEFINITION. SegmentEncoder (spec/40_segment_encoder.md): ENCODE, APPLY_DP, ENCODE_DP. -/

namespace Sys2Proof.Machine

/-- A digit and a point request presented on the encoder port (R21, R95): the combinational output follows. No register of
the block changes (R90). -/
def presentEncoder (d : Digit) (dp : Bool) (s : State) : State :=
  { s with
    encPattern := encoderAnswer d dp s
    draws := drawsAfterEncode d s }

/-- The encoder port asked for a value, which is also what the operation answers (R22). -/
def askEncoder (d : Digit) (dp : Bool) (s : State) : State :=
  { presentEncoder d dp s with result := encoderAnswer d dp s }

/-- ENCODE `d` (R93, R96): the port with `enc_dp = 0`. -/
def execEncode (d : Digit) (s : State) : Host.Outcome State Fault Refusal :=
  .next (askEncoder d false s)

/-- APPLY_DP `p` (R94): a result and nothing else; it has no port of its own (log 16). -/
def execApplyDp (p : Byte) (s : State) : Host.Outcome State Fault Refusal :=
  .next { s with result := clearPoint p }

/-- ENCODE_DP `d, e` (R95, R96). -/
def execEncodeDp (e : Bool) (d : Digit) (s : State) : Host.Outcome State Fault Refusal :=
  .next (askEncoder d e s)

end Sys2Proof.Machine
end

