-- ==== Sys2Proof/Machine/Driver.lean ====
section
/-! DEFINITION. ShiftRegisterDriver (spec/41_shift_register_driver.md): SHIFT_BIT, SHIFT_BYTE, SEND, at the event level. -/

namespace Sys2Proof.Machine

/-- SHIFT_BIT `b` (R101): data, then one clock pulse. -/
def shiftOutBit (b : Bool) (s : State) : State :=
  pinWrite .clock false (pinWrite .clock true (pinWrite .data b s))

/-- `for i = n-1 downto 0: SHIFT_BIT frame[i]`, with `bit_idx` the index being shifted (R29, R104). -/
def shiftOutFrame : Nat → State → State
  | 0, s => s
  | n + 1, s => shiftOutFrame n (shiftOutBit (s.frame.getLsbD n) { s with bitIdx := BitVec.ofNat 4 n })

/-- SEND of the frame already in the frame register (R104 steps 1 to 4): latch low, the 16 bits, latch high. -/
def sendFrame (s : State) : State :=
  pinWrite .latch true (shiftOutFrame 16 (pinWrite .latch false { s with bitIdx := 15 }))

/-- A bare SEND taken in an idle block (R107, R130): the operands are captured, `raw` is set. -/
def acceptSend (seg sel : Byte) (s : State) : State :=
  { s with frame := seg ++ sel, raw := true }

/-- A bare SEND request (R104, R107): performed whole in an idle block, with `done` after it (R31) and no dwell; ignored while
busy (R128). -/
def requestSend (seg sel : Byte) (s : State) : State :=
  whenIdle (fun u => { sendFrame (acceptSend seg sel u) with done := true }) s

/-- The SEND in progress has come to the step `SHIFT_BIT b`: its next bit `frame[bit_idx]` is `b` (R76, R80, R101, R104). -/
abbrev ShiftBitDue (b : Bool) (s : State) : Prop :=
  s.phase = .dataOut ∧ s.frame.getLsbD s.bitIdx.toNat = b

/-- The SEND in progress has come to the step `SHIFT_BYTE w`: step 2 or 3 of R104 as a whole (R80, R86, R102). -/
abbrev ShiftByteDue (w : Byte) (s : State) : Prop :=
  s.phase = .dataOut ∧
    (s.bitIdx = 15 ∧ s.frame.extractLsb' 8 8 = w ∨ s.bitIdx = 7 ∧ s.frame.extractLsb' 0 8 = w)

/-- The step `SHIFT_BIT b` of the SEND in progress: `data`, one clock pulse, and on to the next bit or to the latch (R101, R104).
It is what the DATA, CLK_HI and CLK_LO rows of R130 do. -/
def sendBit (b : Bool) (s : State) : State :=
  let t := shiftOutBit b s
  if s.bitIdx = 0 then { t with phase := .latchHi, done := false }
  else { t with bitIdx := s.bitIdx - 1, phase := .dataOut, done := false }

/-- `for i = n-1 downto 0: SHIFT_BIT w[i]` (R102), as steps of the SEND in progress. -/
def sendBits (w : Byte) : Nat → State → State
  | 0, s => s
  | n + 1, s => sendBits w n (sendBit (w.getLsbD n) s)

/-- SHIFT_BIT `b` (R101). Only SEND issues it, and the block gives no clock pulse outside a frame (R56, R63): it runs where the
SEND in progress has come to it, and elsewhere nothing happens (log 16). -/
def execShiftBit (b : Bool) (s : State) : Host.Outcome State Fault Refusal :=
  .next (if ShiftBitDue b s then sendBit b s else s)

/-- SHIFT_BYTE `w` (R102), bit 7 first: it runs where the SEND in progress has come to it, as SHIFT_BIT does (log 16). -/
def execShiftByte (w : Byte) (s : State) : Host.Outcome State Fault Refusal :=
  .next (if ShiftByteDue w s then sendBits w 8 s else s)

/-- SEND `seg, sel` (R104) on its port (R107). -/
def execSend (seg sel : Byte) (s : State) : Host.Outcome State Fault Refusal :=
  .next (requestSend seg sel s)

end Sys2Proof.Machine
end

