-- ==== Sys2Proof/Machine/Multiplexer.lean ====
section
/-! DEFINITION. DisplayMultiplexer (spec/42_display_multiplexer.md): DECOMPOSE and RENDER at the event level. -/

namespace Sys2Proof.Machine

/-- DECOMPOSE (R121): the digit registers take the value's four low decimal digits. -/
def decomposeValue (v : Value) (s : State) : State :=
  { s with digits := digitsOf v }

/-- A RENDER taken in an idle block (R127): operands captured, sequencer at the first slot. -/
def acceptRender (en : Bool) (pos : Position) (v : Value) (s : State) : State :=
  { decomposeValue v s with dpEnR := en, dpPosR := pos, digitIdx := 0, raw := false }

/-- The frame register takes the frame of the slot `digit_idx` (R122, R130). -/
def loadSlot (s : State) : State :=
  { s with
    frame := slotFrame s
    draws := drawsAfterEncode (digitAt s.digits s.digitIdx) s }

/-- The dwell of a slot, elapsed (R124): no pin write, and the counter stands at 1 as its last cycle left it (R130). -/
def dwellElapsed (s : State) : State :=
  waitMs Config.tDwellMs { s with dwellCnt := 1 }

/-- The slot of digit index `i` (R124): one SEND, one dwell. -/
def runSlot (i : Position) (s : State) : State :=
  dwellElapsed (sendFrame (loadSlot { s with digitIdx := i }))

/-- One pass (R123): the four slots, leftmost first. -/
def runPass (s : State) : State :=
  runSlot 3 (runSlot 2 (runSlot 1 (runSlot 0 s)))

/-- A RENDER request (R123, R127): one whole pass in an idle block, with `done` after it (R31); ignored while busy (R128). -/
def requestRender (en : Bool) (pos : Position) (v : Value) (s : State) : State :=
  whenIdle (fun u => { runPass (acceptRender en pos v u) with done := true }) s

/-- DECOMPOSE `v` (R121). It is the acceptance step of a RENDER, so while a pass is in progress the digits stay as they are
(R25, R128; DEDUCED, log 16). -/
def execDecompose (_x : BitVec 3) (v : Value) (s : State) : Host.Outcome State Fault Refusal :=
  .next (whenIdle (decomposeValue v) s)

/-- RENDER `v, {en, pos}` (R123). -/
def execRender (en : Bool) (pos : Position) (v : Value) (s : State) : Host.Outcome State Fault Refusal :=
  .next (requestRender en pos v s)

end Sys2Proof.Machine
end

