-- ==== Sys2Proof/Machine/Sequencer.lean ====
section
/-! DEFINITION. The cycle level (spec/42_display_multiplexer.md R130, spec/70_reset_and_hazards.md R180 to R182): what one rising
edge of `clk` does, one function for each row of the next-state table. -/

namespace Sys2Proof.Machine

/-- The ports with no request and no reset asserted. -/
def noRequest : Ports where
  rst := false
  start := false
  value := 0
  dpEn := false
  dpPos := 0
  sndStart := false
  sndSegments := 0
  sndDigitSelect := 0
  encDigit := 0
  encDp := false

/-- `rst` (R43, R180, R182): the lines fall to 0 without any rising edge, so the receiver keeps both stages; an operation in
progress is abandoned; the trace starts again (log 13); the unspecified registers take free values (log 7). -/
def resetBlock (s : State) : State :=
  { drawOperandRegisters s with
    latch := false
    clock := false
    data := false
    phase := .idle
    digitIdx := 0
    bitIdx := 0
    raw := false
    dwellCnt := 0
    done := false
    log := [] }

/-- The IDLE rows of R130, `start` before `snd_start` (R107, R166). -/
def idleEdge (p : Ports) (s : State) : State :=
  if p.start then { acceptRender p.dpEn p.dpPos p.value s with phase := .latchLo }
  else if p.sndStart then { acceptSend p.sndSegments p.sndDigitSelect s with phase := .latchLo }
  else s

/-- The LATCH_LO rows: `latch <- 0`, and the slot's frame is loaded when the operation is a RENDER. -/
def latchLoEdge (s : State) : State :=
  let loaded := if s.raw then s else loadSlot s
  { pinWrite .latch false loaded with bitIdx := 15, phase := .dataOut }

/-- The DATA row: `data <- frame[bit_idx]`. -/
def dataEdge (s : State) : State :=
  { pinWrite .data (s.frame.getLsbD s.bitIdx.toNat) s with phase := .clkHi }

/-- The CLK_HI row: `clock <- 1`. -/
def clkHiEdge (s : State) : State :=
  { pinWrite .clock true s with phase := .clkLo }

/-- The CLK_LO rows: `clock <- 0`, then the next bit or the end of the frame. -/
def clkLoEdge (s : State) : State :=
  if s.bitIdx = 0 then { pinWrite .clock false s with phase := .latchHi }
  else { pinWrite .clock false s with bitIdx := s.bitIdx - 1, phase := .dataOut }

/-- The LATCH_HI rows: `latch <- 1`, then the dwell, or the end of a bare SEND. -/
def latchHiEdge (s : State) : State :=
  if s.raw then { pinWrite .latch true s with phase := .idle }
  else { pinWrite .latch true s with dwellCnt := Config.dwellCycles, phase := .dwell }

/-- The DWELL rows: hold, then the next slot, or the end of the pass. The log records the dwell once it has elapsed (log 14). -/
def dwellEdge (s : State) : State :=
  if s.dwellCnt ≠ 1 then { s with dwellCnt := s.dwellCnt - 1 }
  else if s.digitIdx ≠ 3 then { waitMs Config.tDwellMs s with digitIdx := s.digitIdx + 1, phase := .latchLo }
  else { waitMs Config.tDwellMs s with phase := .idle }

/-- The row of R130 for the present phase. -/
def sequencerEdge (p : Ports) (s : State) : State :=
  match s.phase with
  | .idle => idleEdge p s
  | .latchLo => latchLoEdge s
  | .dataOut => dataEdge s
  | .clkHi => clkHiEdge s
  | .clkLo => clkLoEdge s
  | .latchHi => latchHiEdge s
  | .dwell => dwellEdge s

/-- One rising edge of `clk` (R130, R180): `rst` wins over every row; otherwise the row of the phase, with `done` as R31 says. -/
def clockEdge (p : Ports) (s : State) : State :=
  if p.rst then resetBlock s
  else { sequencerEdge p s with done := doneAfter s.phase (sequencerEdge p s).phase }

/-- One cycle with the given port levels: the encoder port answers combinationally, in whatever phase (R95, C10), and the
registers take the edge that ends the cycle. -/
def cycle (p : Ports) (s : State) : State :=
  clockEdge p (presentEncoder p.encDigit p.encDp s)

/-- Edges after the present one's SEND or slot until the operation ends (R131). -/
def cyclesAfterFrame (raw : Bool) (i : Position) : Nat :=
  if raw then 0 else Config.dwellCycles + (3 - i.toNat) * (50 + Config.dwellCycles)

/-- Edges an operation in progress still needs (R131). -/
def cyclesToGo (s : State) : Nat :=
  match s.phase with
  | .idle => 0
  | .latchLo => 50 + cyclesAfterFrame s.raw s.digitIdx
  | .dataOut => 3 * s.bitIdx.toNat + 4 + cyclesAfterFrame s.raw s.digitIdx
  | .clkHi => 3 * s.bitIdx.toNat + 3 + cyclesAfterFrame s.raw s.digitIdx
  | .clkLo => 3 * s.bitIdx.toNat + 2 + cyclesAfterFrame s.raw s.digitIdx
  | .latchHi => 1 + cyclesAfterFrame s.raw s.digitIdx
  | .dwell => s.dwellCnt + (3 - s.digitIdx.toNat) * (50 + Config.dwellCycles)

/-- At most `n` edges with no port asserted, none after the block is idle. -/
def awaitIdleFor : Nat → State → State
  | 0, s => s
  | n + 1, s => if s.phase = .idle then s else awaitIdleFor n (clockEdge noRequest s)

/-- The wait for `busy` back to 0 (R150, log 29): the operation in progress, if there is one, runs to its end. -/
def awaitIdle (s : State) : State :=
  awaitIdleFor (cyclesToGo s) s

end Sys2Proof.Machine
end

