-- ==== Sys2Proof/Machine/Environment.lean ====
section
/-! DEFINITION. The block's host (spec/43_environment_timekeeper_modearbiter.md): TimeKeeper and ModeArbiter. Each change and
each read of ClockState is one indivisible step (R143, R144). -/

namespace Sys2Proof.Machine

/-- The display mode of one iteration (R41); it is never stored. -/
inductive DisplayMode where
  | time
  | voltage
  deriving DecidableEq, Repr

/-- TK_ADVANCE (R141). -/
def advanceClock (s : State) : State :=
  let sec := s.seconds + 1
  let carry := decide (sec = Config.secMod)
  let mins := if carry then s.minutes + 1 else s.minutes
  { s with
    seconds := if carry then 0 else sec
    minutes := if mins = Config.minMod then 0 else mins }

/-- TK_RESET (R142). -/
def clearClock (s : State) : State :=
  { s with seconds := 0, minutes := 0 }

/-- `n` ticks, each exactly one TK_ADVANCE (R164, R168). -/
def runTicks : Nat → State → State
  | 0, s => s
  | n + 1, s => runTicks n (advanceClock s)

/-- Step 2 of ARB_ITERATE (R145, R146): Voltage while the mode button is pressed (level 0). -/
def modeOf (modeButton : Bool) : DisplayMode :=
  if modeButton then .time else .voltage

/-- Step 1 of ARB_ITERATE (R145): a pressed reset button (level 0) clears the clock and waits out the debounce. -/
def resetStep (resetButton : Bool) (s : State) : State :=
  if resetButton then s else waitMs Config.tDebounceMs (clearClock s)

/-- The value of an iteration (R145 steps 3 and 4, R147, R148): the analog sample counts in Voltage mode only (R154). -/
def shownValue (mode : DisplayMode) (sample : BitVec 16) (s : State) : Value :=
  match mode with
  | .voltage => voltageValue sample
  | .time => timeValue s.seconds s.minutes

/-- The decimal point's position of an iteration (R145, R147, R148). -/
def pointPosition (mode : DisplayMode) : Position :=
  match mode with
  | .voltage => 0
  | .time => 1

/-- Steps 2 to 5 of ARB_ITERATE (R145): the mode, the value and policy, and the RENDER request (R150). -/
def showStep (modeButton : Bool) (sample : BitVec 16) (s : State) : State :=
  requestRender true (pointPosition (modeOf modeButton)) (shownValue (modeOf modeButton) sample s) s

/-- One iteration with its inputs (R145), ticks falling where the tick context may run between two of its steps that touch
ClockState (R151, R166, log 11). -/
def iterateWith (inp : ArbInputs) (s : State) : State :=
  runTicks inp.ticksAfterRead
    (showStep inp.modeButton inp.sample
      (runTicks inp.ticksBeforeRead (resetStep inp.resetButton (runTicks inp.ticksBeforeReset s))))

/-- TK_ADVANCE (R141). -/
def execTkAdvance (s : State) : Host.Outcome State Fault Refusal :=
  .next (advanceClock s)

/-- TK_RESET (R142). -/
def execTkReset (s : State) : Host.Outcome State Fault Refusal :=
  .next (clearClock s)

/-- ARB_ITERATE (R145): one iteration of the control loop, which starts when no operation is in progress any more, so that its
RENDER request never meets a busy block (R150). -/
def execArbIterate (s : State) : Host.Outcome State Fault Refusal :=
  let u := awaitIdle s
  .next (iterateWith (nextInputs u) (takeInputs u))

end Sys2Proof.Machine
end

