-- ==== Sys2Proof/Machine/Tables.lean ====
section
/-! DEFINITION. The data rows of opcode_table.json, SEG_0 to SEG_9 and DSEL_0 to DSEL_3, as the reads of the constant tables
they are values of (spec/20_memory.md R50, R51; DEDUCED, log 15): the row's word is the result, and nothing else changes. -/

namespace Sys2Proof.Machine

/-- The table's pattern of digit `d` with bit 7 as `p` says: 1 as the table holds it, 0 with the point lit (R92). -/
def readSegment (d : Digit) (p : Bool) (s : State) : State :=
  { s with
    result := encoderAnswer d (!p) s
    draws := drawsAfterEncode d s }

/-- The table's mask of digit index `i` (R51). -/
def readSelect (i : Position) (s : State) : State :=
  { s with result := dselRead i }

/-- SEG_0 (R92). -/
def execSeg0 (p : Bool) (s : State) : Host.Outcome State Fault Refusal := .next (readSegment 0 p s)

/-- SEG_1 (R92). -/
def execSeg1 (p : Bool) (s : State) : Host.Outcome State Fault Refusal := .next (readSegment 1 p s)

/-- SEG_2 (R92). -/
def execSeg2 (p : Bool) (s : State) : Host.Outcome State Fault Refusal := .next (readSegment 2 p s)

/-- SEG_3 (R92). -/
def execSeg3 (p : Bool) (s : State) : Host.Outcome State Fault Refusal := .next (readSegment 3 p s)

/-- SEG_4 (R92). -/
def execSeg4 (p : Bool) (s : State) : Host.Outcome State Fault Refusal := .next (readSegment 4 p s)

/-- SEG_5 (R92). -/
def execSeg5 (p : Bool) (s : State) : Host.Outcome State Fault Refusal := .next (readSegment 5 p s)

/-- SEG_6 (R92). -/
def execSeg6 (p : Bool) (s : State) : Host.Outcome State Fault Refusal := .next (readSegment 6 p s)

/-- SEG_7 (R92). -/
def execSeg7 (p : Bool) (s : State) : Host.Outcome State Fault Refusal := .next (readSegment 7 p s)

/-- SEG_8 (R92). -/
def execSeg8 (p : Bool) (s : State) : Host.Outcome State Fault Refusal := .next (readSegment 8 p s)

/-- SEG_9 (R92). -/
def execSeg9 (p : Bool) (s : State) : Host.Outcome State Fault Refusal := .next (readSegment 9 p s)

/-- DSEL_0 (R51). -/
def execDsel0 (s : State) : Host.Outcome State Fault Refusal := .next (readSelect 0 s)

/-- DSEL_1 (R51). -/
def execDsel1 (s : State) : Host.Outcome State Fault Refusal := .next (readSelect 1 s)

/-- DSEL_2 (R51). -/
def execDsel2 (s : State) : Host.Outcome State Fault Refusal := .next (readSelect 2 s)

/-- DSEL_3 (R51). -/
def execDsel3 (s : State) : Host.Outcome State Fault Refusal := .next (readSelect 3 s)

end Sys2Proof.Machine
end

