-- ==== Sys2Proof/Machine/Dispatch.lean ====
section
/-! DEFINITION. The one dispatch: an arm for each row of opcode_table.json, each one call of that row's meaning. -/

namespace Sys2Proof.Machine

def exec (i : Instr) (s : State) : Host.Outcome State Fault Refusal :=
  match i with
  | .encode d => Sys2Proof.Machine.execEncode d s
  | .applyDp p => Sys2Proof.Machine.execApplyDp p s
  | .encodeDp e d => Sys2Proof.Machine.execEncodeDp e d s
  | .shiftBit b => Sys2Proof.Machine.execShiftBit b s
  | .shiftByte w => Sys2Proof.Machine.execShiftByte w s
  | .send seg sel => Sys2Proof.Machine.execSend seg sel s
  | .decompose x v => Sys2Proof.Machine.execDecompose x v s
  | .render en pos v => Sys2Proof.Machine.execRender en pos v s
  | .tkAdvance => Sys2Proof.Machine.execTkAdvance s
  | .tkReset => Sys2Proof.Machine.execTkReset s
  | .arbIterate => Sys2Proof.Machine.execArbIterate s
  | .seg0 p => Sys2Proof.Machine.execSeg0 p s
  | .seg1 p => Sys2Proof.Machine.execSeg1 p s
  | .seg2 p => Sys2Proof.Machine.execSeg2 p s
  | .seg3 p => Sys2Proof.Machine.execSeg3 p s
  | .seg4 p => Sys2Proof.Machine.execSeg4 p s
  | .seg5 p => Sys2Proof.Machine.execSeg5 p s
  | .seg6 p => Sys2Proof.Machine.execSeg6 p s
  | .seg7 p => Sys2Proof.Machine.execSeg7 p s
  | .seg8 p => Sys2Proof.Machine.execSeg8 p s
  | .seg9 p => Sys2Proof.Machine.execSeg9 p s
  | .dsel0 => Sys2Proof.Machine.execDsel0 s
  | .dsel1 => Sys2Proof.Machine.execDsel1 s
  | .dsel2 => Sys2Proof.Machine.execDsel2 s
  | .dsel3 => Sys2Proof.Machine.execDsel3 s

end Sys2Proof.Machine
end

