-- ==== Sys2Proof/Machine/Fetch.lean ====
section
/-! DEFINITION. How a request becomes an operation: a scheduled word is decoded and its operation executed; a word that is
none of its row's is refused by name (spec/30_encoding.md R76, R80). -/

namespace Sys2Proof.Machine

/-- The refusal for a word the decoder rejects. -/
def refusalOf (r : Reject) : Refusal :=
  match r with
  | .tooWide => .wordTooWide
  | .fixedBits => .wordFixedBits

/-- One request taken from the schedule. -/
def runRequest (k : Select) (w : RequestWord) (s : State) : Host.Outcome State Fault Refusal :=
  match decode k w with
  | .ok i => exec i s
  | .error r => .refused (refusalOf r)

/-- What happens when the outside has scheduled nothing: an operation in progress runs on (its caller waits, R150); otherwise
the control loop, which "runs forever", iterates (R145, log 3). -/
def runUnscheduled (s : State) : Host.Outcome State Fault Refusal :=
  if s.phase = .idle then exec .arbIterate s else .next (clockEdge noRequest s)

end Sys2Proof.Machine
end

