-- ==== Sys2Proof/Machine/Step.lean ====
section
/-! DEFINITION. One step (log 3): the oldest scheduled action; with nothing scheduled, the clock runs on while an operation is
in progress and the control loop iterates otherwise (spec/43_environment_timekeeper_modearbiter.md R145, R150). -/

namespace Sys2Proof.Machine

def step (s : State) : Host.Outcome State Fault Refusal :=
  match s.schedule with
  | [] => runUnscheduled s
  | .clk p :: rest => .next (cycle p { s with schedule := rest })
  | .op k w :: rest => runRequest k w { s with schedule := rest }

/-- `s` with one request word placed where `step` takes its next action (log 3). -/
def State.withFetchWord (s : State) (nbits w : Nat) : State :=
  { s with schedule := .op (tableRequest nbits w).1 (tableRequest nbits w).2 :: s.schedule }

end Sys2Proof.Machine
end

