-- ==== Sys2Proof/Safety.lean ====
section
/-! DEFINITION. The terms claims are stated in: the event sequences of the protocol as spec/41_shift_register_driver.md and
spec/42_display_multiplexer.md write them, an observer of the three lines, and the properties a safe state has. -/

namespace Sys2Proof.Safety

open Sys2Proof.Machine

/-- The three events of SHIFT_BIT `b` (R101). -/
def bitEvents (b : Bool) : List Event :=
  [.pin .data b, .pin .clock true, .pin .clock false]

/-- The events of SHIFT_BYTE `w`, bit 7 first (R102). -/
def byteEvents (w : Byte) : List Event :=
  [7, 6, 5, 4, 3, 2, 1, 0].flatMap fun i => bitEvents (w.getLsbD i)

/-- The 50 events of SEND `seg, sel` (R104). -/
def sendEvents (seg sel : Byte) : List Event :=
  .pin .latch false :: (byteEvents seg ++ byteEvents sel ++ [.pin .latch true])

/-- The pattern of digit index `i` in a pass (R122): the complement of the common-cathode pattern, with bit 7 cleared at the
policy's position. -/
def passPattern (en : Bool) (pos : Position) (v : Value) (i : Position) : Byte :=
  let p := ~~~(Config.segCC.getD (digitAt (digitsOf v) i).toNat 0)
  if en = true ∧ i = pos then p &&& 0x7F else p

/-- The select mask of digit index `i` (R51): `1 << i`. -/
def oneHot (i : Position) : Byte := 1 <<< i.toNat

/-- The frame of digit index `i` in a pass (R122). -/
def passFrame (en : Bool) (pos : Position) (v : Value) (i : Position) : Frame :=
  passPattern en pos v i ++ oneHot i

/-- The events of one slot (R124): a SEND, then the dwell of 2 ms. -/
def slotEvents (en : Bool) (pos : Position) (v : Value) (i : Position) : List Event :=
  sendEvents (passPattern en pos v i) (oneHot i) ++ [.wait 2]

/-- The events of one pass (R123), leftmost digit first. -/
def passEvents (en : Bool) (pos : Position) (v : Value) : List Event :=
  [0, 1, 2, 3].flatMap (slotEvents en pos v)

/-- What an observer of the three lines with the receiver of R109 and R110 knows. -/
structure Wires where
  latch : Bool
  clock : Bool
  data : Bool
  sr : BitVec 16
  out : BitVec 16
  deriving DecidableEq, Repr

/-- The lines and the receiver of a state. -/
def wiresOf (s : State) : Wires := ⟨s.latch, s.clock, s.data, s.sr, s.out⟩

/-- The observer's reaction to one event (R100, R109, R110): only a rising `clock` shifts, only a rising `latch` commits. -/
def observe (w : Wires) (e : Event) : Wires :=
  match e with
  | .pin .data b => { w with data := b }
  | .pin .clock b =>
    { w with clock := b, sr := if w.clock = false ∧ b = true then (w.sr <<< 1) ||| (BitVec.ofBool w.data).setWidth 16 else w.sr }
  | .pin .latch b => { w with latch := b, out := if w.latch = false ∧ b = true then w.sr else w.out }
  | .wait _ => w

/-- The observer's reaction to a sequence of events, in order (R62). -/
def replay (w : Wires) (es : List Event) : Wires := es.foldl observe w

/-- The levels of `data` and `latch` at each rising edge of `clock`, in order. -/
def clockRises (w : Wires) : List Event → List (Bool × Bool)
  | [] => []
  | e :: es =>
    if e = .pin .clock true ∧ w.clock = false then (w.data, w.latch) :: clockRises (observe w e) es
    else clockRises (observe w e) es

/-- The level of `latch` at each falling edge of `clock`, in order. -/
def clockFalls (w : Wires) : List Event → List Bool
  | [] => []
  | e :: es =>
    if e = .pin .clock false ∧ w.clock = true then w.latch :: clockFalls (observe w e) es
    else clockFalls (observe w e) es

/-- The frames committed to the output stage, one for each rising edge of `latch`, in order. -/
def commits (w : Wires) : List Event → List (BitVec 16)
  | [] => []
  | e :: es =>
    if e = .pin .latch true ∧ w.latch = false then w.sr :: commits (observe w e) es
    else commits (observe w e) es

/-- The state after `n` executions of one operation, each of which answers a next state. -/
def execTimes (i : Instr) : Nat → State → Option State
  | 0, s => some s
  | n + 1, s =>
    match exec i s with
    | .next t => execTimes i n t
    | .fault _ => none
    | .refused _ => none

/-- The state after one cycle for each element of the list, with those port levels. -/
def edges (ps : List Ports) (s : State) : State := ps.foldl (fun u p => clockEdge p u) s

/-- The state after one cycle for each element of the list, the encoder port answering in each (R95). -/
def cycles (ps : List Ports) (s : State) : State := ps.foldl (fun u p => cycle p u) s

/-- `w` is `s` after the edges, with no port asserted, that the operation in progress takes to its end: none if there is none
(R150, R30). -/
def WaitsUntilIdle (s w : State) : Prop :=
  ∃ n, w = edges (List.replicate n noRequest) s ∧ w.busy = false ∧
    ∀ m, m < n → (edges (List.replicate m noRequest) s).busy = true

/-- No cycle of the list asserts `rst`. -/
def NoReset (ps : List Ports) : Prop := ∀ p ∈ ps, p.rst = false

/-- ClockState lies in [0,59] x [0,99] (R40, R141). -/
def ClockInRange (s : State) : Prop := s.seconds < 60 ∧ s.minutes < 100

/-- The lines agree with the sequencer: `clock` is high only between CLK_HI and CLK_LO (R103), `latch` is low inside a frame
(R56, R187) and high during a dwell (R124). -/
def LineDiscipline (s : State) : Prop :=
  (s.clock = true → s.phase = .clkLo) ∧
  (s.phase = .dataOut ∨ s.phase = .clkHi ∨ s.phase = .clkLo ∨ s.phase = .latchHi → s.latch = false) ∧
  (s.phase = .dwell → s.latch = true)

/-- Some receiver state before the trace explains the lines and the receiver now: lines at 0 as reset leaves them, then
exactly the recorded events (R39, R43, R62). -/
def TraceExplainsLines (s : State) : Prop :=
  ∃ sr out : BitVec 16, replay ⟨false, false, false, sr, out⟩ s.log = wiresOf s

/-- Where a trace stands with respect to frames (R56, R63): outside, or inside one with so many pulses begun, between pulses or
within one. -/
inductive FrameScan where
  | outside
  | between (pulses : Nat)
  | within (pulses : Nat)
  deriving DecidableEq, Repr

/-- What one event makes of it, none where R56 or R63 excludes the event: the lines are written inside frames alone, a frame
closes after exactly 16 whole pulses, and `data` and `latch` stay as they are within a pulse. -/
def FrameScan.next (f : FrameScan) (e : Event) : Option FrameScan :=
  match f, e with
  | .outside, .pin .latch false => some (.between 0)
  | .between n, .pin .data _ => some (.between n)
  | .between n, .pin .clock true => if n < 16 then some (.within (n + 1)) else none
  | .within n, .pin .clock false => some (.between n)
  | .between n, .pin .latch true => if n = 16 then some .outside else none
  | f, .wait _ => some f
  | .outside, .pin .latch true => none
  | .outside, .pin .clock _ => none
  | .outside, .pin .data _ => none
  | .between _, .pin .clock false => none
  | .between _, .pin .latch false => none
  | .within _, .pin .clock true => none
  | .within _, .pin .latch _ => none
  | .within _, .pin .data _ => none

/-- The scan of a trace from a point on. -/
def scanFrames (f : FrameScan) (es : List Event) : Option FrameScan := es.foldlM FrameScan.next f

/-- Where the sequencer stands with respect to frames (R106, R130). -/
def frameScanOf (s : State) : FrameScan :=
  match s.phase with
  | .idle => .outside
  | .latchLo => .outside
  | .dataOut => .between (15 - s.bitIdx.toNat)
  | .clkHi => .between (15 - s.bitIdx.toNat)
  | .clkLo => .within (16 - s.bitIdx.toNat)
  | .latchHi => .between 16
  | .dwell => .outside

/-- The trace since reset is a sequence of whole frames, the last one perhaps in progress as far as the sequencer says: no pulse
stands outside a frame, none is missing and none is too many, and `data` is stable around each (R56, R63). -/
def TraceIsFrames (s : State) : Prop := scanFrames .outside s.log = some (frameScanOf s)

/-- A dwell under way has at least one cycle to go, and belongs to a RENDER (R107, R130, R134). -/
def DwellCounts (s : State) : Prop := s.phase = .dwell → 1 ≤ s.dwellCnt ∧ s.raw = false

/-- While a pass is in progress the operand registers hold decimal digits (R25, R121). -/
def PassDigitsDecimal (s : State) : Prop :=
  s.phase ≠ .idle ∧ s.raw = false →
    s.digits.d0.toNat ≤ 9 ∧ s.digits.d1.toNat ≤ 9 ∧ s.digits.d2.toNat ≤ 9 ∧ s.digits.d3.toNat ≤ 9

end Sys2Proof.Safety
end

