-- ==== Sys2Proof/Certificates/Slice0/Obligations.lean ====
section
/-! DEFINITION. The statements for the provers, from the numbered rules of spec/. Each docstring names the rules. -/

open Sys2Proof Sys2Proof.Machine Sys2Proof.Safety

/-! ### Request words -/

/-- R76, R80: every operation's word, given to the decoder with its selection, is read back as that operation. -/
def Obligations.DecodeOfEncodeIsSame : Prop :=
  ∀ i : Instr, decode (encode i).1 (encode i).2 = .ok i

/-- R76, R80: a word the decoder accepts has one meaning, and the encoder gives exactly that word for it. -/
def Obligations.EncodeOfDecodeIsSame : Prop :=
  ∀ (k : Select) (w : RequestWord) (i : Instr), decode k w = .ok i → encode i = (k, w)

/-- R76, R92, R51 and opcode_table.json: the accepted words of a row are those within its width that carry its fixed bits. That
the others are refused, and under which name, is the model's choice (log 2). -/
def Obligations.DecodeAcceptsExactlyTheRowsWords : Prop :=
  ∀ (k : Select) (w : RequestWord),
    (2 ^ k.row.width ≤ w.toNat → decode k w = .error .tooWide) ∧
    (w.toNat < 2 ^ k.row.width → w &&& k.row.mask ≠ k.row.pattern → decode k w = .error .fixedBits) ∧
    (w.toNat < 2 ^ k.row.width → w &&& k.row.mask = k.row.pattern → ∃ i, decode k w = .ok i)

/-- Words written out in the spec (95_test_vectors.md V1, V10, V11, V12, V22, V30, P1, P2, the example of R94, rows SEG_2, SEG_5,
DSEL_2 of opcode_table.json): each decodes to the operation it stands for. That three words with a wrong fixed bit or a bit too
many are refused is the model's choice (log 2). -/
def Obligations.WorkedWordsDecode : Prop :=
  decode .encode 0x05 = .ok (.encode 5) ∧
  decode .applyDp 0x92 = .ok (.applyDp 0x92) ∧
  decode .encodeDp 0x15 = .ok (.encodeDp true 5) ∧
  decode .shiftBit 0x1 = .ok (.shiftBit true) ∧
  decode .shiftByte 0xA4 = .ok (.shiftByte 0xA4) ∧
  decode .send 0xA404 = .ok (.send 0xA4 0x04) ∧
  decode .decompose 0x50212 = .ok (.decompose 5 530) ∧
  decode .render 0x50212 = .ok (.render true 1 530) ∧
  decode .render 0x40ABE = .ok (.render true 0 2750) ∧
  decode .tkAdvance 0 = .ok .tkAdvance ∧
  decode .arbIterate 0 = .ok .arbIterate ∧
  decode .seg2 0x24 = .ok (.seg2 false) ∧
  decode .seg5 0x92 = .ok (.seg5 true) ∧
  decode .dsel2 0x04 = .ok .dsel2 ∧
  decode .encode 0x15 = .error .fixedBits ∧
  decode .dsel0 0x02 = .error .fixedBits ∧
  decode .render 0x80000 = .error .tooWide

/-! ### Steps -/

/-- A step with a request at the head of the schedule that decodes to `i` is `exec i` on the state with that request taken
off; nothing else happens around it (log 3 is the model's choice of where requests come from). -/
def Obligations.StepRunsDecodedRequest : Prop :=
  ∀ (s : State) (k : Select) (w : RequestWord) (rest : List Action) (i : Instr),
    s.schedule = .op k w :: rest → decode k w = .ok i → step s = exec i { s with schedule := rest }

/-- A bare word placed by withFetchWord is what the next step executes, on the state as it was (log 2 and log 3 are the
model's choices). -/
def Obligations.StepRunsPlacedWord : Prop :=
  ∀ (s : State) (nbits w : Nat) (i : Instr),
    decodeTableWord nbits w = some i → step (s.withFetchWord nbits w) = exec i s

/-- A request whose word is none of its row's is refused by name. The spec speaks of no refusal: this is the model's choice
(log 2). -/
def Obligations.StepRefusesWordsOfNoRow : Prop :=
  ∀ (s : State) (k : Select) (w : RequestWord) (rest : List Action),
    s.schedule = .op k w :: rest →
    (decode k w = .error .tooWide → step s = .refused .wordTooWide) ∧
    (decode k w = .error .fixedBits → step s = .refused .wordFixedBits)

/-- A scheduled clock edge is one cycle with the given port levels; with nothing scheduled the clock runs on while an operation
is in progress and the control loop iterates otherwise (log 3). -/
def Obligations.StepClocksOrIterates : Prop :=
  (∀ (s : State) (p : Ports) (rest : List Action), s.schedule = .clk p :: rest →
    step s = .next (cycle p { s with schedule := rest })) ∧
  (∀ s : State, s.schedule = [] → s.phase = .idle → step s = exec .arbIterate s) ∧
  (∀ s : State, s.schedule = [] → s.phase ≠ .idle → step s = .next (clockEdge noRequest s))

/-- R160, R162: every operation, with any operands and in any state, answers a next state: nothing traps. That nothing is refused
is the model's choice where R162 would let a model refuse (ENCODE of 10 to 15, log 6; a request while busy, log 17), and that the
data rows and the internal operations answer on their own is its reading (logs 15 and 16). -/
def Obligations.EveryOperationCompletes : Prop :=
  ∀ (i : Instr) (s : State), ∃ t, exec i s = .next t

/-! ### Reset -/

/-- R43, R44: the values the spec states for the state right after reset. -/
def Obligations.ResetStateHasStatedValues : Prop :=
  State.reset.latch = false ∧ State.reset.clock = false ∧ State.reset.data = false ∧ State.reset.phase = .idle ∧
  State.reset.digitIdx = 0 ∧ State.reset.bitIdx = 0 ∧ State.reset.raw = false ∧ State.reset.dwellCnt = 0 ∧
  State.reset.busy = false ∧ State.reset.done = false ∧ State.reset.trace = [] ∧
  State.reset.seconds = 0 ∧ State.reset.minutes = 0

/-- R43, R180: an edge with `rst = 1`, in whatever phase and whatever else is asserted, leaves the stated reset values and does
not pulse `done` (R182); the receiver neither shifts nor commits (R45, R182, inferences the spec marks so) and nothing of the
environment is touched (R174). The emptied log is R43's empty trace with log 13. -/
def Obligations.RstAbandonsEverything : Prop :=
  ∀ (p : Ports) (s : State), p.rst = true →
    let t := clockEdge p s
    t.latch = false ∧ t.clock = false ∧ t.data = false ∧ t.phase = .idle ∧ t.digitIdx = 0 ∧ t.bitIdx = 0 ∧
    t.raw = false ∧ t.dwellCnt = 0 ∧ t.busy = false ∧ t.done = false ∧ t.trace = [] ∧
    t.sr = s.sr ∧ t.out = s.out ∧ t.seconds = s.seconds ∧ t.minutes = s.minutes ∧
    t.encPattern = s.encPattern ∧ t.result = s.result ∧ t.script = s.script ∧ t.schedule = s.schedule

/-! ### SegmentEncoder -/

/-- R93: ENCODE of a decimal digit answers the complement of its common-cathode pattern, on the port and as the result (log 23
is the model's choice of where a result is kept), and changes nothing else. -/
def Obligations.EncodeAnswersComplement : Prop :=
  ∀ (s : State) (d : Digit), d.toNat ≤ 9 →
    exec (.encode d) s =
      .next { s with
        encPattern := ~~~(Config.segCC.getD d.toNat 0)
        result := ~~~(Config.segCC.getD d.toNat 0) }

/-- R95: ENCODE_DP of a decimal digit answers that pattern, with bit 7 cleared exactly when the point is asked for (log 5 is the
default table, log 23 where a result is kept); nothing else changes. -/
def Obligations.EncodeDpAnswersPatternWithPoint : Prop :=
  ∀ (s : State) (e : Bool) (d : Digit), d.toNat ≤ 9 →
    ∃ r : Byte,
      exec (.encodeDp e d) s = .next { s with encPattern := r, result := r } ∧
      r = (if e then ~~~(Config.segCC.getD d.toNat 0) &&& 0x7F else ~~~(Config.segCC.getD d.toNat 0)) ∧
      r.getLsbD 7 = !e

/-- R96: for a digit 10 to 15 ENCODE and ENCODE_DP run on: the byte answered is a free value, fresh each time, and nothing
else changes. Log 6 is the model's form of that free value; the statement holds whatever `Config.freeByte` is. -/
def Obligations.EncodeOutsideTableRunsOn : Prop :=
  ∀ (s : State) (e : Bool) (d : Digit), 9 < d.toNat →
    exec (.encode d) s =
      .next { s with
        encPattern := Config.freeByte s.draws
        result := Config.freeByte s.draws
        draws := s.draws + 1 } ∧
    exec (.encodeDp e d) s =
      .next { s with
        encPattern := Config.freeByte s.draws
        result := Config.freeByte s.draws
        draws := s.draws + 1 }

/-- R94: APPLY_DP clears bit 7 of any byte, leaves bits 6 to 0, and changes nothing but the result. That it answers on its own in
every phase and drives no port is the model's reading (log 16), where its answer is kept the model's choice (log 23). -/
def Obligations.ApplyDpClearsBitSeven : Prop :=
  ∀ (s : State) (p : Byte),
    ∃ r : Byte,
      exec (.applyDp p) s = .next { s with result := r } ∧
      r = p &&& 0x7F ∧ r.getLsbD 7 = false ∧ (∀ i, i < 7 → r.getLsbD i = p.getLsbD i)

/-- R91 (3), R92 (for the default table, log 5): every pattern without its point has bit 7 set and the twenty patterns are
pairwise distinct; R95: the all-zero pattern is that of digit 8 with its point alone. -/
def Obligations.SegmentPatternsAreDistinct : Prop :=
  ∀ (s : State) (d d' : Digit) (e e' : Bool) (t t' : State), d.toNat ≤ 9 → d'.toNat ≤ 9 →
    exec (.encodeDp e d) s = .next t → exec (.encodeDp e' d') s = .next t' →
    (e = false → t.result.getLsbD 7 = true) ∧ (t.result = t'.result → d = d' ∧ e = e') ∧
    (t.result = 0x00 ↔ d = 8 ∧ e = true)

/-- R92 and rows SEG_0 to SEG_9 (log 5: the default table; log 15: the reading of a data row): each row answers its word and
changes nothing else. -/
def Obligations.SegmentRowsAnswerTheirWord : Prop :=
  ∀ (s : State) (p : Bool),
    exec (.seg0 p) s = .next { s with result := if p then 0xC0 else 0x40 } ∧
    exec (.seg1 p) s = .next { s with result := if p then 0xF9 else 0x79 } ∧
    exec (.seg2 p) s = .next { s with result := if p then 0xA4 else 0x24 } ∧
    exec (.seg3 p) s = .next { s with result := if p then 0xB0 else 0x30 } ∧
    exec (.seg4 p) s = .next { s with result := if p then 0x99 else 0x19 } ∧
    exec (.seg5 p) s = .next { s with result := if p then 0x92 else 0x12 } ∧
    exec (.seg6 p) s = .next { s with result := if p then 0x82 else 0x02 } ∧
    exec (.seg7 p) s = .next { s with result := if p then 0xF8 else 0x78 } ∧
    exec (.seg8 p) s = .next { s with result := if p then 0x80 else 0x00 } ∧
    exec (.seg9 p) s = .next { s with result := if p then 0x90 else 0x10 }

/-- R51 and rows DSEL_0 to DSEL_3 (log 15): each row answers its one-hot mask and changes nothing else. -/
def Obligations.SelectRowsAnswerTheirMask : Prop :=
  ∀ s : State,
    exec .dsel0 s = .next { s with result := 0x01 } ∧
    exec .dsel1 s = .next { s with result := 0x02 } ∧
    exec .dsel2 s = .next { s with result := 0x04 } ∧
    exec .dsel3 s = .next { s with result := 0x08 }

/-- R81: a pattern ENCODE_DP answers for a decimal digit shows that digit, its point lit exactly when asked for; a pattern
shows a digit only if it is that digit's pattern but for bit 7; a mask shows its own position. For the default table (log 5). -/
def Obligations.PatternsShowTheirDigit : Prop :=
  (∀ (s t : State) (e : Bool) (d : Digit), d.toNat ≤ 9 → exec (.encodeDp e d) s = .next t →
    shownDigit t.result = some d ∧ pointLit t.result = e) ∧
  (∀ (p : Byte) (d : Digit), shownDigit p = some d → p ||| 0x80 = ~~~(Config.segCC.getD d.toNat 0)) ∧
  (∀ (m : Byte) (i : Position), shownPosition m = some i ↔ m = oneHot i)

/-! ### ShiftRegisterDriver and the receiver -/

/-- R101, R100, R109, R104: SHIFT_BIT runs where the SEND in progress has come to it (R80 "internal (SEND)", R56), that is where
the next bit of the frame is its operand: it writes data and then pulses the clock once, and the SEND goes on to its next bit or
to the latch. From the clock's rest level (R103) the pulse has a rising edge and the receiver takes the bit in; from a high clock
the same three writes hold no rising edge and the receiver takes nothing in. Nothing else changes. Anywhere else no SEND issues
it and nothing changes (log 16 is the model's reading). -/
def Obligations.ShiftBitTakesOneBitIn : Prop :=
  ∀ (s : State) (b : Bool),
    exec (.shiftBit b) s =
      .next (if s.phase = .dataOut ∧ s.frame.getLsbD s.bitIdx.toNat = b then
        { s with
          data := b
          clock := false
          bitIdx := if s.bitIdx = 0 then 0 else s.bitIdx - 1
          phase := if s.bitIdx = 0 then .latchHi else .dataOut
          done := false
          sr := if s.clock = false then s.sr.extractLsb' 0 15 ++ BitVec.ofBool b else s.sr
          log := s.log ++ [.pin .data b, .pin .clock true, .pin .clock false] }
        else s)

/-- R102, R109, R104: SHIFT_BYTE runs where the SEND in progress has come to it as a whole (R80, R86), at its segments or at its
digit select, from the clock's rest level: it presents bit 7 first, 24 events in all; the receiver's low byte becomes the operand
and its old low byte moves up; the SEND goes on to its second byte or to the latch; nothing else changes. Anywhere else no SEND
issues it and nothing changes (log 16 is the model's reading). -/
def Obligations.ShiftByteTakesEightBitsIn : Prop :=
  (∀ (s : State) (w : Byte), s.phase = .dataOut → s.clock = false →
    (s.bitIdx = 15 ∧ s.frame.extractLsb' 8 8 = w ∨ s.bitIdx = 7 ∧ s.frame.extractLsb' 0 8 = w) →
    exec (.shiftByte w) s =
      .next { s with
        data := w.getLsbD 0
        clock := false
        bitIdx := if s.bitIdx = 15 then 7 else 0
        phase := if s.bitIdx = 15 then .dataOut else .latchHi
        done := false
        sr := s.sr.extractLsb' 0 8 ++ w
        log := s.log ++ byteEvents w } ∧
    (byteEvents w).length = 24) ∧
  (∀ (s : State) (w : Byte),
    ¬ (s.phase = .dataOut ∧
      (s.bitIdx = 15 ∧ s.frame.extractLsb' 8 8 = w ∨ s.bitIdx = 7 ∧ s.frame.extractLsb' 0 8 = w)) →
    exec (.shiftByte w) s = .next s)

/-- R104, R112, R37: SEND in an idle block with the clock at rest makes its 50 writes and leaves the lines at 1, 0 and the last
bit sent, the receiver at exactly the frame in both stages, `done` at 1 (log 18); nothing else changes. -/
def Obligations.SendPutsTheFrameInTheReceiver : Prop :=
  ∀ (s : State) (seg sel : Byte), s.phase = .idle → s.clock = false →
    exec (.send seg sel) s =
      .next { s with
        latch := true
        clock := false
        data := sel.getLsbD 0
        frame := seg ++ sel
        bitIdx := 0
        raw := true
        done := true
        sr := seg ++ sel
        out := seg ++ sel
        log := s.log ++ sendEvents seg sel }

/-- R105 (a) to (f): the events of a SEND hold the protocol: 50 of them; 16 rising and 16 falling clock edges, `latch` low at
each; data levels at the rises are the frame's bits, bit 15 first; `latch` is written first and last and not between; one
commit, after the last clock edge. -/
def Obligations.SendKeepsTheProtocol : Prop :=
  ∀ (s : State) (seg sel : Byte), s.phase = .idle → s.clock = false →
    ∃ (t : State) (mid : List Event),
      exec (.send seg sel) s = .next t ∧
      t.log = s.log ++ (.pin .latch false :: (mid ++ [.pin .latch true])) ∧
      mid = (List.range 16).flatMap (fun k =>
        [.pin .data ((seg ++ sel : Frame).getLsbD (15 - k)), .pin .clock true, .pin .clock false]) ∧
      clockRises (wiresOf s) (.pin .latch false :: (mid ++ [.pin .latch true])) =
        (List.range 16).map (fun k => ((seg ++ sel : Frame).getLsbD (15 - k), false)) ∧
      clockFalls (wiresOf s) (.pin .latch false :: (mid ++ [.pin .latch true])) = List.replicate 16 false ∧
      commits (wiresOf s) (.pin .latch false :: (mid ++ [.pin .latch true])) = [seg ++ sel] ∧
      t.latch = true ∧ t.clock = false ∧ t.data = sel.getLsbD 0

/-- R59, R112: from the first event of a SEND until its last the receiver's outputs keep what they showed before; the last event
shows the whole frame at once. -/
def Obligations.OutputsAreFrozenDuringSend : Prop :=
  ∀ (s t : State) (seg sel : Byte) (n : Nat), s.phase = .idle → s.clock = false →
    exec (.send seg sel) s = .next t →
    (n < 50 → (replay (wiresOf s) ((t.log.drop s.log.length).take n)).out = s.out) ∧
    (50 ≤ n → (replay (wiresOf s) ((t.log.drop s.log.length).take n)).out = seg ++ sel)

/-- R86, R102, R104: where the SEND in progress has come to it, SHIFT_BYTE w is SHIFT_BIT w[7], ..., SHIFT_BIT w[0]; and a SEND in
an idle block is its acceptance and `latch <- 0`, SHIFT_BYTE of the segments, SHIFT_BYTE of the digit select, `latch <- 1`: the
state is then exactly the one the event-level SEND answers (logs 1, 16 and 18). -/
def Obligations.DriverOperationsExpand : Prop :=
  (∀ (s : State) (w : Byte), s.phase = .dataOut →
    (s.bitIdx = 15 ∧ s.frame.extractLsb' 8 8 = w ∨ s.bitIdx = 7 ∧ s.frame.extractLsb' 0 8 = w) →
    some (exec (.shiftByte w) s) =
      ([7, 6, 5, 4, 3, 2, 1, 0].foldlM (fun u i =>
        match exec (.shiftBit (w.getLsbD i)) u with
        | .next u' => some u'
        | .fault _ => none
        | .refused _ => none) s).map .next) ∧
  (∀ (s t u v : State) (p q r : Ports), s.phase = .idle →
    p.rst = false → p.start = false → p.sndStart = true → q.rst = false → r.rst = false →
    exec (.send p.sndSegments p.sndDigitSelect) s = .next t →
    exec (.shiftByte p.sndSegments) (clockEdge q (clockEdge p s)) = .next u →
    exec (.shiftByte p.sndDigitSelect) u = .next v →
    clockEdge r v = t)

/-- R128: SEND and RENDER change nothing while an operation is in progress (log 17 is the model's choice of ignoring where the
spec also allows refusing); nor do DECOMPOSE (R25), and SHIFT_BIT and SHIFT_BYTE where the SEND in progress has not come to them
(R56, R63, R80), asked for on their own (log 16). -/
def Obligations.RequestsAreIgnoredWhileBusy : Prop :=
  ∀ (s : State), s.phase ≠ .idle →
    (∀ seg sel, exec (.send seg sel) s = .next s) ∧
    (∀ en pos v, exec (.render en pos v) s = .next s) ∧
    (∀ x v, exec (.decompose x v) s = .next s) ∧
    (∀ b, ¬ (s.phase = .dataOut ∧ s.frame.getLsbD s.bitIdx.toNat = b) → exec (.shiftBit b) s = .next s) ∧
    (∀ w, ¬ (s.phase = .dataOut ∧
        (s.bitIdx = 15 ∧ s.frame.extractLsb' 8 8 = w ∨ s.bitIdx = 7 ∧ s.frame.extractLsb' 0 8 = w)) →
      exec (.shiftByte w) s = .next s)

/-- R56, R63, R64, R86: whatever operation is asked for while one is in progress, the block's lines, the receiver, the pin trace
and every register of the operation in progress are as the sequencer's own edges leave them: after none, or, for a SHIFT_BIT or
SHIFT_BYTE that is the step the SEND in progress has come to, after the 3 or 24 edges that perform it. An ARB_ITERATE (R150) lets
the sequencer's own edges bring the operation to its end and is then what it is in the idle block. So nothing interrupts an
operation in progress but `rst` (logs 16, 17 and 29). -/
def Obligations.NoOperationDisturbsABusyBlock : Prop :=
  (∀ (i : Instr) (s t : State), i ≠ .arbIterate → s.phase ≠ .idle → exec i s = .next t →
    ∃ n : Nat, (n = 0 ∨ ((∃ b, i = .shiftBit b) ∧ n = 3) ∨ ((∃ w, i = .shiftByte w) ∧ n = 24)) ∧
      let u := edges (List.replicate n noRequest) s
      wiresOf t = wiresOf u ∧ t.trace = u.trace ∧ t.digits = u.digits ∧ t.dpEnR = u.dpEnR ∧ t.dpPosR = u.dpPosR ∧
      t.frame = u.frame ∧ t.phase = u.phase ∧ t.digitIdx = u.digitIdx ∧ t.bitIdx = u.bitIdx ∧ t.raw = u.raw ∧
      t.dwellCnt = u.dwellCnt ∧ t.done = u.done) ∧
  (∀ s : State, s.phase ≠ .idle → DwellCounts s →
    ∃ w, WaitsUntilIdle s w ∧ exec .arbIterate s = exec .arbIterate w)

/-! ### DisplayMultiplexer -/

/-- R121, R77: DECOMPOSE in an idle block writes the four low decimal digits, most significant first, ignores the word's other
bits, and changes nothing else (log 16 is the model's reading of a DECOMPOSE on its own). -/
def Obligations.DecomposeWritesDigits : Prop :=
  ∀ (s : State) (x : BitVec 3) (v : Value), s.phase = .idle →
    exec (.decompose x v) s =
      .next { s with
        digits :=
          ⟨BitVec.ofNat 4 (v.toNat / 1000 % 10), BitVec.ofNat 4 (v.toNat / 100 % 10),
            BitVec.ofNat 4 (v.toNat / 10 % 10), BitVec.ofNat 4 (v.toNat % 10)⟩ }

/-- R121, laws: every digit is at most 9, and the digits recompose to the value modulo 10000, so to the value itself from 0 to
9999. -/
def Obligations.DigitsRecomposeTheValue : Prop :=
  ∀ (s t : State) (x : BitVec 3) (v : Value), s.phase = .idle → exec (.decompose x v) s = .next t →
    t.digits.d0.toNat ≤ 9 ∧ t.digits.d1.toNat ≤ 9 ∧ t.digits.d2.toNat ≤ 9 ∧ t.digits.d3.toNat ≤ 9 ∧
    t.digits.d0.toNat * 1000 + t.digits.d1.toNat * 100 + t.digits.d2.toNat * 10 + t.digits.d3.toNat =
      v.toNat % 10000 ∧
    (v.toNat ≤ 9999 →
      t.digits.d0.toNat * 1000 + t.digits.d1.toNat * 100 + t.digits.d2.toNat * 10 + t.digits.d3.toNat = v.toNat)

/-- R123, R124: RENDER in an idle block with the clock at rest makes one pass: four slots, leftmost first, each a SEND of the
digit's pattern and one-hot mask and a 2 ms dwell; it ends with the last digit's frame in the receiver, the lines at 1, 0, 0,
and changes nothing it is not said to write (logs 14 and 18: the elapsed dwells in the log, `done` after the pass). -/
def Obligations.RenderMakesOnePass : Prop :=
  ∀ (s : State) (en : Bool) (pos : Position) (v : Value), s.phase = .idle → s.clock = false →
    exec (.render en pos v) s =
      .next { s with
        latch := true
        clock := false
        data := false
        digits :=
          ⟨BitVec.ofNat 4 (v.toNat / 1000 % 10), BitVec.ofNat 4 (v.toNat / 100 % 10),
            BitVec.ofNat 4 (v.toNat / 10 % 10), BitVec.ofNat 4 (v.toNat % 10)⟩
        dpEnR := en
        dpPosR := pos
        frame := passFrame en pos v 3
        digitIdx := 3
        bitIdx := 0
        raw := false
        dwellCnt := 1
        done := true
        sr := passFrame en pos v 3
        out := passFrame en pos v 3
        log := s.log ++ (slotEvents en pos v 0 ++ slotEvents en pos v 1 ++ slotEvents en pos v 2 ++ slotEvents en pos v 3) }

/-- R125: the counts of one RENDER: 200 pin writes, 64 clock pulses, 4 falling and 4 rising writes of `latch`, 4 dwells; the
frames committed are frame 0 to frame 3 in order, low bytes 0x01, 0x02, 0x04, 0x08 (log 14: dwells in the log). -/
def Obligations.RenderCommitsFourFrames : Prop :=
  ∀ (s : State) (en : Bool) (pos : Position) (v : Value), s.phase = .idle → s.clock = false →
    ∃ (t : State) (es : List Event),
      exec (.render en pos v) s = .next t ∧ t.log = s.log ++ es ∧
      (es.filterMap Event.pinEvent).length = 200 ∧
      es.count (.wait 2) = 4 ∧
      es.count (.pin .clock true) = 64 ∧ es.count (.pin .clock false) = 64 ∧
      (clockRises (wiresOf s) es).length = 64 ∧
      es.count (.pin .latch false) = 4 ∧ es.count (.pin .latch true) = 4 ∧
      commits (wiresOf s) es =
        [passFrame en pos v 0, passFrame en pos v 1, passFrame en pos v 2, passFrame en pos v 3] ∧
      (commits (wiresOf s) es).map (fun f => f.extractLsb' 0 8) = [0x01, 0x02, 0x04, 0x08]

/-- R122, R51, R73: in the four frames a RENDER commits, and in the frame a slot loads at the cycle level, the point is lit
(bit 15 at 0) exactly at the policy's position when the policy is enabled, the other seven drives are those of the pattern of the
value's digit at that index, and the low byte is the index's mask. -/
def Obligations.PassLightsOnePoint : Prop :=
  (∀ (s : State) (en : Bool) (pos : Position) (v : Value), s.phase = .idle → s.clock = false →
    ∃ (t : State) (es : List Event) (f : Position → Frame),
      exec (.render en pos v) s = .next t ∧ t.log = s.log ++ es ∧
      commits (wiresOf s) es = [f 0, f 1, f 2, f 3] ∧
      ∀ i : Position,
        (f i).getLsbD 15 = !(en && decide (i = pos)) ∧
        (∀ j, j < 7 → (f i).getLsbD (8 + j) =
          (~~~(Config.segCC.getD (v.toNat / 10 ^ (3 - i.toNat) % 10) 0)).getLsbD j) ∧
        (f i).extractLsb' 0 8 = oneHot i) ∧
  (∀ (s : State) (v : Value), s.digits = digitsOf v →
    (loadSlot s).frame.getLsbD 15 = !(s.dpEnR && decide (s.digitIdx = s.dpPosR)) ∧
    (∀ j, j < 7 → (loadSlot s).frame.getLsbD (8 + j) =
      (~~~(Config.segCC.getD (v.toNat / 10 ^ (3 - s.digitIdx.toNat) % 10) 0)).getLsbD j) ∧
    (loadSlot s).frame.extractLsb' 0 8 = oneHot s.digitIdx)

/-- R57 (a), R121: a value above 9999 is shown as its low four decimal digits: the two requests cannot be told apart. -/
def Obligations.RenderTruncatesSilently : Prop :=
  ∀ (s : State) (en : Bool) (pos : Position) (v : Value),
    exec (.render en pos v) s = exec (.render en pos (BitVec.ofNat 16 (v.toNat % 10000))) s

/-- R86: on the lines, in the receiver and in the pin trace a RENDER in an idle block is DECOMPOSE and then four SENDs of the
digits' frames, leftmost first (log 16: a DECOMPOSE on its own). -/
def Obligations.RenderExpandsToFourSends : Prop :=
  ∀ (s t u0 u1 u2 u3 u4 : State) (en : Bool) (pos : Position) (x : BitVec 3) (v : Value), s.phase = .idle →
    exec (.render en pos v) s = .next t → exec (.decompose x v) s = .next u0 →
    exec (.send (passPattern en pos v 0) 0x01) u0 = .next u1 →
    exec (.send (passPattern en pos v 1) 0x02) u1 = .next u2 →
    exec (.send (passPattern en pos v 2) 0x04) u2 = .next u3 →
    exec (.send (passPattern en pos v 3) 0x08) u3 = .next u4 →
    wiresOf t = wiresOf u4 ∧ t.trace = u4.trace ∧ t.digits = u4.digits

/-- R111, R122: with the frame of digit index `i` on the outputs, exactly the segments whose pattern bit is 0 are lit, at
position `i` and nowhere else. -/
def Obligations.SlotLightsOnePosition : Prop :=
  ∀ (en : Bool) (pos : Position) (v : Value) (i k : Position) (j : BitVec 3),
    lit (passFrame en pos v i) k j = (decide (k = i) && !(passPattern en pos v i).getLsbD j.toNat)

/-- R38, R111: after a RENDER the rightmost position is lit, some segment of it a to g, and no other position has anything lit (the
table is the default one, log 5). -/
def Obligations.LastDigitStaysLit : Prop :=
  ∀ (s t : State) (en : Bool) (pos : Position) (v : Value), s.phase = .idle → s.clock = false →
    exec (.render en pos v) s = .next t →
    (∃ j : BitVec 3, j ≠ 7 ∧ lit t.out 3 j = true) ∧
    (∀ (k : Position) (j : BitVec 3), lit t.out k j = true → k = 3)

/-! ### The cycle level -/

/-- R130, R107, R127, R166: the IDLE rows: RENDER before SEND, operands captured, no pin write. -/
def Obligations.IdleRowsAcceptRequests : Prop :=
  ∀ (p : Ports) (s : State), p.rst = false → s.phase = .idle →
    (p.start = true →
      clockEdge p s =
        { s with
          digits := digitsOf p.value, dpEnR := p.dpEn, dpPosR := p.dpPos, digitIdx := 0, raw := false
          phase := .latchLo, done := false }) ∧
    (p.start = false → p.sndStart = true →
      clockEdge p s =
        { s with frame := p.sndSegments ++ p.sndDigitSelect, raw := true, phase := .latchLo, done := false }) ∧
    (p.start = false → p.sndStart = false → clockEdge p s = { s with done := false })

/-- R130: the rows of a frame, each one pin write; the frame of a RENDER's slot is loaded with the write `latch <- 0` (for
decimal digits, which a pass in progress holds). -/
def Obligations.FrameRowsWriteOnePin : Prop :=
  ∀ (p : Ports) (s : State), p.rst = false →
    (s.phase = .latchLo → s.raw = true →
      clockEdge p s = { pinWrite .latch false s with bitIdx := 15, phase := .dataOut, done := false }) ∧
    (s.phase = .latchLo → s.raw = false → (digitAt s.digits s.digitIdx).toNat ≤ 9 →
      clockEdge p s =
        { pinWrite .latch false s with
          frame :=
            (if s.dpEnR = true ∧ s.digitIdx = s.dpPosR
              then ~~~(Config.segCC.getD (digitAt s.digits s.digitIdx).toNat 0) &&& 0x7F
              else ~~~(Config.segCC.getD (digitAt s.digits s.digitIdx).toNat 0)) ++ oneHot s.digitIdx
          bitIdx := 15, phase := .dataOut, done := false }) ∧
    (s.phase = .dataOut →
      clockEdge p s = { pinWrite .data (s.frame.getLsbD s.bitIdx.toNat) s with phase := .clkHi, done := false }) ∧
    (s.phase = .clkHi → clockEdge p s = { pinWrite .clock true s with phase := .clkLo, done := false }) ∧
    (s.phase = .clkLo → s.bitIdx ≠ 0 →
      clockEdge p s =
        { pinWrite .clock false s with bitIdx := s.bitIdx - 1, phase := .dataOut, done := false }) ∧
    (s.phase = .clkLo → s.bitIdx = 0 →
      clockEdge p s = { pinWrite .clock false s with phase := .latchHi, done := false })

/-- R130: the LATCH_HI and DWELL rows: the dwell after a RENDER's frame and none after a bare SEND's; the next slot, or the end
of the pass with `done`; the log gains the elapsed dwell (log 14). -/
def Obligations.DwellRowsEndTheSlot : Prop :=
  ∀ (p : Ports) (s : State), p.rst = false →
    (s.phase = .latchHi → s.raw = true →
      clockEdge p s = { pinWrite .latch true s with phase := .idle, done := true }) ∧
    (s.phase = .latchHi → s.raw = false →
      clockEdge p s =
        { pinWrite .latch true s with dwellCnt := Config.dwellCycles, phase := .dwell, done := false }) ∧
    (s.phase = .dwell → s.dwellCnt ≠ 1 → clockEdge p s = { s with dwellCnt := s.dwellCnt - 1, done := false }) ∧
    (s.phase = .dwell → s.dwellCnt = 1 → s.digitIdx ≠ 3 →
      clockEdge p s =
        { s with digitIdx := s.digitIdx + 1, phase := .latchLo, done := false, log := s.log ++ [.wait 2] }) ∧
    (s.phase = .dwell → s.dwellCnt = 1 → s.digitIdx = 3 →
      clockEdge p s = { s with phase := .idle, done := true, log := s.log ++ [.wait 2] })

/-- R100, R109, R110: what one pin write does to the lines, the receiver and the trace: only a rising `clock` shifts, taking
the present `data`; only a rising `latch` commits; nothing else of the state changes. -/
def Obligations.PinWriteDrivesTheReceiver : Prop :=
  ∀ (s : State) (b : Bool),
    pinWrite .data b s = { s with data := b, log := s.log ++ [.pin .data b] } ∧
    pinWrite .clock b s =
      { s with
        clock := b
        sr := if s.clock = false ∧ b = true then s.sr.extractLsb' 0 15 ++ BitVec.ofBool s.data else s.sr
        log := s.log ++ [.pin .clock b] } ∧
    pinWrite .latch b s =
      { s with
        latch := b
        out := if s.latch = false ∧ b = true then s.sr else s.out
        log := s.log ++ [.pin .latch b] }

/-- R31, R30: after every edge `done` is 1 exactly if the edge, not being a reset, took a busy block to IDLE. -/
def Obligations.DonePulsesWhenAnOperationEnds : Prop :=
  ∀ (p : Ports) (s : State),
    (clockEdge p s).done = (!p.rst && s.busy && !(clockEdge p s).busy)

/-- R128, R192, R66: while busy, and without `rst`, no input port changes what an edge does. -/
def Obligations.EdgesIgnorePortsWhileBusy : Prop :=
  ∀ (p q : Ports) (s : State), s.busy = true → p.rst = false → q.rst = false → clockEdge p s = clockEdge q s

/-- R95, R96, C10: using the encoder port in a cycle disturbs nothing: the cycle is the clock edge, with the port answering. For
a digit 10 to 15 the answer is a free byte (log 6), which advances the draws; then, without `rst`, every other field is that of
the clock edge (for decimal digits in the operand registers, which a pass in progress holds), and with `rst` every other field
but the four registers that take free values of their own (log 7). -/
def Obligations.EncoderPortDisturbsNothing : Prop :=
  ∀ (p : Ports) (s : State),
    (p.encDigit.toNat ≤ 9 →
      cycle p s =
        { clockEdge p s with
          encPattern :=
            if p.encDp then ~~~(Config.segCC.getD p.encDigit.toNat 0) &&& 0x7F
            else ~~~(Config.segCC.getD p.encDigit.toNat 0) }) ∧
    (9 < p.encDigit.toNat → p.rst = false → PassDigitsDecimal s →
      cycle p s = { clockEdge p s with encPattern := Config.freeByte s.draws, draws := s.draws + 1 }) ∧
    (9 < p.encDigit.toNat → p.rst = true →
      cycle p s =
        { clockEdge p s with
          encPattern := Config.freeByte s.draws
          draws := s.draws + 5
          digits := (cycle p s).digits
          dpEnR := (cycle p s).dpEnR
          dpPosR := (cycle p s).dpPosR
          frame := (cycle p s).frame })

/-- R13, R106, R107: the cycle level refines the event level: an accepted bare SEND is over after exactly 50 further cycles,
busy until then, whatever the ports do meanwhile short of `rst`, the encoder port included; every field but the encoder port's
answer and the draws it takes is then that of the state the event-level SEND answers (log 1 is the model's choice of two levels,
log 18 of `done` at the event level). -/
def Obligations.FiftyCyclesPerformTheSend : Prop :=
  ∀ (s : State) (p : Ports) (ps : List Ports), s.phase = .idle → p.rst = false → p.start = false → p.sndStart = true →
    ps.length = 50 → NoReset ps →
    (∃ t : State,
      exec (.send p.sndSegments p.sndDigitSelect) s = .next t ∧
      cycles (p :: ps) s =
        { t with encPattern := (cycles (p :: ps) s).encPattern, draws := (cycles (p :: ps) s).draws }) ∧
    (∀ n, n < 50 → (cycles (p :: ps.take n) s).busy = true)

/-- R13, R127, R130, R131: an accepted RENDER is over after exactly 4 x (50 + DWELL_CYCLES) further cycles, busy until then,
whatever the ports do meanwhile short of `rst`, the encoder port included; every field but the encoder port's answer and the
draws it takes is then that of the state the event-level RENDER answers (logs 1, 9, 14, 18). -/
def Obligations.CyclesPerformTheRender : Prop :=
  ∀ (s : State) (p : Ports) (ps : List Ports), s.phase = .idle → p.rst = false → p.start = true →
    ps.length = 4 * (50 + Config.dwellCycles) → NoReset ps →
    (∃ t : State,
      exec (.render p.dpEn p.dpPos p.value) s = .next t ∧
      cycles (p :: ps) s =
        { t with encPattern := (cycles (p :: ps) s).encPattern, draws := (cycles (p :: ps) s).draws }) ∧
    (∀ n, n < 4 * (50 + Config.dwellCycles) → (cycles (p :: ps.take n) s).busy = true)

/-! ### The environment -/

/-- R141: TK_ADVANCE counts seconds to 59 and minutes to 99 and wraps, changes nothing but ClockState, keeps it in range, and
has period 6000. -/
def Obligations.AdvanceCountsTheClock : Prop :=
  ∀ s : State, ClockInRange s →
    ∃ t : State, exec .tkAdvance s = .next t ∧
      t = { s with
        seconds := if s.seconds = 59 then 0 else s.seconds + 1
        minutes := if s.seconds = 59 then (if s.minutes = 99 then 0 else s.minutes + 1) else s.minutes } ∧
      ClockInRange t ∧
      execTimes .tkAdvance 6000 s = some s

/-- R142: TK_RESET zeroes ClockState and changes nothing else. -/
def Obligations.ClockResetZeroes : Prop :=
  ∀ s : State, exec .tkReset s = .next { s with seconds := 0, minutes := 0 }

/-- R153: the closed form of `n` ticks from zero. -/
def Obligations.TicksFromZeroHaveClosedForm : Prop :=
  ∀ (s : State) (n : Nat), s.seconds = 0 → s.minutes = 0 →
    execTimes .tkAdvance n s = some { s with seconds := n % 60, minutes := n / 60 % 100 }

/-- R145, R147, R150, R151: an iteration with both buttons released starts when no operation is in progress any more, at once in
an idle block (log 29 is the model's form of that wait), and shows the clock, packed MMSS with the point at position 1, as it
stands when read: after the ticks that fall before the read, and the ticks after it change the clock only (logs 10, 11). Its
RENDER meets an idle block. -/
def Obligations.IterationShowsTheTime : Prop :=
  ∀ (s : State) (inp : ArbInputs) (rest : List ArbInputs), DwellCounts s → s.script = inp :: rest →
    inp.resetButton = true → inp.modeButton = true →
    ∃ w u v t : State,
      WaitsUntilIdle s w ∧
      execTimes .tkAdvance (inp.ticksBeforeReset + inp.ticksBeforeRead) { w with script := rest } = some u ∧
      u.busy = false ∧
      exec (.render true 1 (BitVec.ofNat 16 (u.minutes * 100 + u.seconds))) u = .next v ∧
      execTimes .tkAdvance inp.ticksAfterRead v = some t ∧
      exec .arbIterate s = .next t

/-- R145, R148, R150: an iteration with the mode button pressed starts when no operation is in progress any more (log 29) and
shows the converted sample with the point at position 0 (logs 8, 10, 11). Its RENDER meets an idle block. -/
def Obligations.IterationShowsTheVoltage : Prop :=
  ∀ (s : State) (inp : ArbInputs) (rest : List ArbInputs), DwellCounts s → s.script = inp :: rest →
    inp.resetButton = true → inp.modeButton = false →
    ∃ w u v t : State,
      WaitsUntilIdle s w ∧
      execTimes .tkAdvance (inp.ticksBeforeReset + inp.ticksBeforeRead) { w with script := rest } = some u ∧
      u.busy = false ∧
      exec (.render true 0 (BitVec.ofNat 16 (Config.adcToMv inp.sample))) u = .next v ∧
      execTimes .tkAdvance inp.ticksAfterRead v = some t ∧
      exec .arbIterate s = .next t

/-- R145 step 1, R143, R149, R150: with the reset button pressed the iteration, started when no operation is in progress any more
(log 29), first clears the clock and waits out 200 ms without a pin write, then goes on as any other; ticks fall before or after
the reset, never inside it (logs 10, 11, 12, 14). -/
def Obligations.IterationResetsTheClock : Prop :=
  ∀ (s : State) (inp : ArbInputs) (rest : List ArbInputs), DwellCounts s → s.script = inp :: rest →
    inp.resetButton = false →
    ∃ w a b u v t : State,
      WaitsUntilIdle s w ∧
      execTimes .tkAdvance inp.ticksBeforeReset { w with script := rest } = some a ∧
      exec .tkReset a = .next b ∧
      execTimes .tkAdvance inp.ticksBeforeRead { b with log := b.log ++ [.wait 200] } = some u ∧
      u.busy = false ∧
      exec (.render true (if inp.modeButton then 1 else 0)
        (if inp.modeButton then BitVec.ofNat 16 (u.minutes * 100 + u.seconds)
          else BitVec.ofNat 16 (Config.adcToMv inp.sample))) u = .next v ∧
      execTimes .tkAdvance inp.ticksAfterRead v = some t ∧
      exec .arbIterate s = .next t

/-- R42, D23, D24 (log 10): with nothing scripted an iteration meets oracle values, about which nothing is assumed. In a block
with a pass in progress this is said where the digits of the pass are decimal, which every step keeps (StepKeepsPassRegisters). -/
def Obligations.UnscriptedIterationMeetsTheOracles : Prop :=
  ∀ s : State, PassDigitsDecimal s → s.script = [] →
    exec .arbIterate s = exec .arbIterate { s with script := [oracleInputs s.draws], draws := s.draws + 1 }

/-- R147: for a clock in range the time value lies in 0 to 9959 and its digits are the two minute digits and the two second
digits. -/
def Obligations.TimeValueShowsMinutesAndSeconds : Prop :=
  ∀ s : State, ClockInRange s →
    (timeValue s.seconds s.minutes).toNat = s.minutes * 100 + s.seconds ∧
    (timeValue s.seconds s.minutes).toNat ≤ 9959 ∧
    digitsOf (timeValue s.seconds s.minutes) =
      ⟨BitVec.ofNat 4 (s.minutes / 10), BitVec.ofNat 4 (s.minutes % 10), BitVec.ofNat 4 (s.seconds / 10),
        BitVec.ofNat 4 (s.seconds % 10)⟩

/-- R148: what may be assumed of the conversion: an integer in 0 to 3300, 0 for sample 0, 2750 for a sample that normalizes to
2.750 V; the value sent to RENDER is that integer. Log 8 is the model's form of the open conversion. -/
def Obligations.VoltageValueIsInRange : Prop :=
  ∀ a : BitVec 16,
    (voltageValue a).toNat = Config.adcToMv a ∧ Config.adcToMv a ≤ 3300 ∧ Config.adcToMv 0 = 0 ∧
    (a = 0 ∨ Config.normalizesTo2750 a = false ∨ Config.adcToMv a = 2750)

/-- R40, R165, R174: ClockState is changed by TK_ADVANCE, TK_RESET and ARB_ITERATE alone: no other operation and no clock edge,
`rst` included, touches it. -/
def Obligations.OnlyTheTimekeeperChangesTheClock : Prop :=
  (∀ (i : Instr) (s t : State), i ≠ .tkAdvance → i ≠ .tkReset → i ≠ .arbIterate → exec i s = .next t →
    t.seconds = s.seconds ∧ t.minutes = s.minutes) ∧
  (∀ (p : Ports) (s : State), (cycle p s).seconds = s.seconds ∧ (cycle p s).minutes = s.minutes)

/-! ### Invariants of every step -/

/-- R40, R141: every step keeps ClockState in [0,59] x [0,99]. -/
def Obligations.StepKeepsClockInRange : Prop :=
  ∀ s t : State, ClockInRange s → step s = .next t → ClockInRange t

/-- R103, R56, R187, R124: every step keeps the lines in agreement with the sequencer. R56, R63: every step keeps the trace a
sequence of whole frames, each opened by `latch <- 0` and closed by `latch <- 1` after exactly 16 clock pulses with `data` and
`latch` stable around each, and with no write of a line outside a frame (log 13: the trace starts again at `rst`; log 16: where a
SHIFT_BIT or SHIFT_BYTE on its own runs). -/
def Obligations.StepKeepsLineDiscipline : Prop :=
  ∀ s t : State, step s = .next t →
    (LineDiscipline s → LineDiscipline t) ∧ (TraceIsFrames s → TraceIsFrames t)

/-- R39, R62, R109, R110: every step keeps the trace a full account of the lines and the receiver: replaying it through the
receiver model from the reset levels gives the lines and both stages as they are (log 13: the log starts again at `rst`). -/
def Obligations.StepKeepsTraceExplanation : Prop :=
  ∀ s t : State, TraceExplainsLines s → step s = .next t → TraceExplainsLines t

/-- R25, R121, R130, R134: every step keeps a pass's digits decimal and a dwell's count positive, so no count passes its end. -/
def Obligations.StepKeepsPassRegisters : Prop :=
  ∀ s t : State, PassDigitsDecimal s → DwellCounts s → step s = .next t → PassDigitsDecimal t ∧ DwellCounts t

/-- The invariants hold at reset (R43, R44). -/
def Obligations.ResetMeetsTheInvariants : Prop :=
  ClockInRange State.reset ∧ LineDiscipline State.reset ∧ TraceIsFrames State.reset ∧ TraceExplainsLines State.reset ∧
  PassDigitsDecimal State.reset ∧ DwellCounts State.reset
end

