-- ==== Sys2Proof/Laws/State.lean ====
section
/-! SUPPORT. What each shared update does to each field, so that no later proof unfolds a record update. -/

namespace Sys2Proof.Machine

@[simp] theorem pinWrite_digits (l : Line) (b : Bool) (s : State) : (pinWrite l b s).digits = s.digits := rfl
@[simp] theorem pinWrite_dpEnR (l : Line) (b : Bool) (s : State) : (pinWrite l b s).dpEnR = s.dpEnR := rfl
@[simp] theorem pinWrite_dpPosR (l : Line) (b : Bool) (s : State) : (pinWrite l b s).dpPosR = s.dpPosR := rfl
@[simp] theorem pinWrite_frame (l : Line) (b : Bool) (s : State) : (pinWrite l b s).frame = s.frame := rfl
@[simp] theorem pinWrite_phase (l : Line) (b : Bool) (s : State) : (pinWrite l b s).phase = s.phase := rfl
@[simp] theorem pinWrite_digitIdx (l : Line) (b : Bool) (s : State) : (pinWrite l b s).digitIdx = s.digitIdx := rfl
@[simp] theorem pinWrite_bitIdx (l : Line) (b : Bool) (s : State) : (pinWrite l b s).bitIdx = s.bitIdx := rfl
@[simp] theorem pinWrite_raw (l : Line) (b : Bool) (s : State) : (pinWrite l b s).raw = s.raw := rfl
@[simp] theorem pinWrite_dwellCnt (l : Line) (b : Bool) (s : State) : (pinWrite l b s).dwellCnt = s.dwellCnt := rfl
@[simp] theorem pinWrite_done (l : Line) (b : Bool) (s : State) : (pinWrite l b s).done = s.done := rfl
@[simp] theorem pinWrite_encPattern (l : Line) (b : Bool) (s : State) : (pinWrite l b s).encPattern = s.encPattern := rfl
@[simp] theorem pinWrite_seconds (l : Line) (b : Bool) (s : State) : (pinWrite l b s).seconds = s.seconds := rfl
@[simp] theorem pinWrite_minutes (l : Line) (b : Bool) (s : State) : (pinWrite l b s).minutes = s.minutes := rfl
@[simp] theorem pinWrite_result (l : Line) (b : Bool) (s : State) : (pinWrite l b s).result = s.result := rfl
@[simp] theorem pinWrite_draws (l : Line) (b : Bool) (s : State) : (pinWrite l b s).draws = s.draws := rfl
@[simp] theorem pinWrite_script (l : Line) (b : Bool) (s : State) : (pinWrite l b s).script = s.script := rfl
@[simp] theorem pinWrite_schedule (l : Line) (b : Bool) (s : State) : (pinWrite l b s).schedule = s.schedule := rfl

@[simp] theorem waitMs_latch (ms : Nat) (s : State) : (waitMs ms s).latch = s.latch := rfl
@[simp] theorem waitMs_clock (ms : Nat) (s : State) : (waitMs ms s).clock = s.clock := rfl
@[simp] theorem waitMs_data (ms : Nat) (s : State) : (waitMs ms s).data = s.data := rfl
@[simp] theorem waitMs_digits (ms : Nat) (s : State) : (waitMs ms s).digits = s.digits := rfl
@[simp] theorem waitMs_dpEnR (ms : Nat) (s : State) : (waitMs ms s).dpEnR = s.dpEnR := rfl
@[simp] theorem waitMs_dpPosR (ms : Nat) (s : State) : (waitMs ms s).dpPosR = s.dpPosR := rfl
@[simp] theorem waitMs_frame (ms : Nat) (s : State) : (waitMs ms s).frame = s.frame := rfl
@[simp] theorem waitMs_phase (ms : Nat) (s : State) : (waitMs ms s).phase = s.phase := rfl
@[simp] theorem waitMs_digitIdx (ms : Nat) (s : State) : (waitMs ms s).digitIdx = s.digitIdx := rfl
@[simp] theorem waitMs_bitIdx (ms : Nat) (s : State) : (waitMs ms s).bitIdx = s.bitIdx := rfl
@[simp] theorem waitMs_raw (ms : Nat) (s : State) : (waitMs ms s).raw = s.raw := rfl
@[simp] theorem waitMs_dwellCnt (ms : Nat) (s : State) : (waitMs ms s).dwellCnt = s.dwellCnt := rfl
@[simp] theorem waitMs_done (ms : Nat) (s : State) : (waitMs ms s).done = s.done := rfl
@[simp] theorem waitMs_encPattern (ms : Nat) (s : State) : (waitMs ms s).encPattern = s.encPattern := rfl
@[simp] theorem waitMs_sr (ms : Nat) (s : State) : (waitMs ms s).sr = s.sr := rfl
@[simp] theorem waitMs_out (ms : Nat) (s : State) : (waitMs ms s).out = s.out := rfl
@[simp] theorem waitMs_seconds (ms : Nat) (s : State) : (waitMs ms s).seconds = s.seconds := rfl
@[simp] theorem waitMs_minutes (ms : Nat) (s : State) : (waitMs ms s).minutes = s.minutes := rfl
@[simp] theorem waitMs_result (ms : Nat) (s : State) : (waitMs ms s).result = s.result := rfl
@[simp] theorem waitMs_draws (ms : Nat) (s : State) : (waitMs ms s).draws = s.draws := rfl
@[simp] theorem waitMs_script (ms : Nat) (s : State) : (waitMs ms s).script = s.script := rfl
@[simp] theorem waitMs_schedule (ms : Nat) (s : State) : (waitMs ms s).schedule = s.schedule := rfl

@[simp] theorem presentEncoder_latch (d : Digit) (dp : Bool) (s : State) : (presentEncoder d dp s).latch = s.latch := rfl
@[simp] theorem presentEncoder_clock (d : Digit) (dp : Bool) (s : State) : (presentEncoder d dp s).clock = s.clock := rfl
@[simp] theorem presentEncoder_data (d : Digit) (dp : Bool) (s : State) : (presentEncoder d dp s).data = s.data := rfl
@[simp] theorem presentEncoder_digits (d : Digit) (dp : Bool) (s : State) : (presentEncoder d dp s).digits = s.digits := rfl
@[simp] theorem presentEncoder_dpEnR (d : Digit) (dp : Bool) (s : State) : (presentEncoder d dp s).dpEnR = s.dpEnR := rfl
@[simp] theorem presentEncoder_dpPosR (d : Digit) (dp : Bool) (s : State) : (presentEncoder d dp s).dpPosR = s.dpPosR := rfl
@[simp] theorem presentEncoder_frame (d : Digit) (dp : Bool) (s : State) : (presentEncoder d dp s).frame = s.frame := rfl
@[simp] theorem presentEncoder_phase (d : Digit) (dp : Bool) (s : State) : (presentEncoder d dp s).phase = s.phase := rfl
@[simp] theorem presentEncoder_digitIdx (d : Digit) (dp : Bool) (s : State) : (presentEncoder d dp s).digitIdx = s.digitIdx := rfl
@[simp] theorem presentEncoder_bitIdx (d : Digit) (dp : Bool) (s : State) : (presentEncoder d dp s).bitIdx = s.bitIdx := rfl
@[simp] theorem presentEncoder_raw (d : Digit) (dp : Bool) (s : State) : (presentEncoder d dp s).raw = s.raw := rfl
@[simp] theorem presentEncoder_dwellCnt (d : Digit) (dp : Bool) (s : State) : (presentEncoder d dp s).dwellCnt = s.dwellCnt := rfl
@[simp] theorem presentEncoder_done (d : Digit) (dp : Bool) (s : State) : (presentEncoder d dp s).done = s.done := rfl
@[simp] theorem presentEncoder_sr (d : Digit) (dp : Bool) (s : State) : (presentEncoder d dp s).sr = s.sr := rfl
@[simp] theorem presentEncoder_out (d : Digit) (dp : Bool) (s : State) : (presentEncoder d dp s).out = s.out := rfl
@[simp] theorem presentEncoder_seconds (d : Digit) (dp : Bool) (s : State) : (presentEncoder d dp s).seconds = s.seconds := rfl
@[simp] theorem presentEncoder_minutes (d : Digit) (dp : Bool) (s : State) : (presentEncoder d dp s).minutes = s.minutes := rfl
@[simp] theorem presentEncoder_log (d : Digit) (dp : Bool) (s : State) : (presentEncoder d dp s).log = s.log := rfl
@[simp] theorem presentEncoder_result (d : Digit) (dp : Bool) (s : State) : (presentEncoder d dp s).result = s.result := rfl
@[simp] theorem presentEncoder_script (d : Digit) (dp : Bool) (s : State) : (presentEncoder d dp s).script = s.script := rfl
@[simp] theorem presentEncoder_schedule (d : Digit) (dp : Bool) (s : State) : (presentEncoder d dp s).schedule = s.schedule := rfl

@[simp] theorem decomposeValue_latch (v : Value) (s : State) : (decomposeValue v s).latch = s.latch := rfl
@[simp] theorem decomposeValue_clock (v : Value) (s : State) : (decomposeValue v s).clock = s.clock := rfl
@[simp] theorem decomposeValue_data (v : Value) (s : State) : (decomposeValue v s).data = s.data := rfl
@[simp] theorem decomposeValue_dpEnR (v : Value) (s : State) : (decomposeValue v s).dpEnR = s.dpEnR := rfl
@[simp] theorem decomposeValue_dpPosR (v : Value) (s : State) : (decomposeValue v s).dpPosR = s.dpPosR := rfl
@[simp] theorem decomposeValue_frame (v : Value) (s : State) : (decomposeValue v s).frame = s.frame := rfl
@[simp] theorem decomposeValue_phase (v : Value) (s : State) : (decomposeValue v s).phase = s.phase := rfl
@[simp] theorem decomposeValue_digitIdx (v : Value) (s : State) : (decomposeValue v s).digitIdx = s.digitIdx := rfl
@[simp] theorem decomposeValue_bitIdx (v : Value) (s : State) : (decomposeValue v s).bitIdx = s.bitIdx := rfl
@[simp] theorem decomposeValue_raw (v : Value) (s : State) : (decomposeValue v s).raw = s.raw := rfl
@[simp] theorem decomposeValue_dwellCnt (v : Value) (s : State) : (decomposeValue v s).dwellCnt = s.dwellCnt := rfl
@[simp] theorem decomposeValue_done (v : Value) (s : State) : (decomposeValue v s).done = s.done := rfl
@[simp] theorem decomposeValue_encPattern (v : Value) (s : State) : (decomposeValue v s).encPattern = s.encPattern := rfl
@[simp] theorem decomposeValue_sr (v : Value) (s : State) : (decomposeValue v s).sr = s.sr := rfl
@[simp] theorem decomposeValue_out (v : Value) (s : State) : (decomposeValue v s).out = s.out := rfl
@[simp] theorem decomposeValue_seconds (v : Value) (s : State) : (decomposeValue v s).seconds = s.seconds := rfl
@[simp] theorem decomposeValue_minutes (v : Value) (s : State) : (decomposeValue v s).minutes = s.minutes := rfl
@[simp] theorem decomposeValue_log (v : Value) (s : State) : (decomposeValue v s).log = s.log := rfl
@[simp] theorem decomposeValue_result (v : Value) (s : State) : (decomposeValue v s).result = s.result := rfl
@[simp] theorem decomposeValue_draws (v : Value) (s : State) : (decomposeValue v s).draws = s.draws := rfl
@[simp] theorem decomposeValue_script (v : Value) (s : State) : (decomposeValue v s).script = s.script := rfl
@[simp] theorem decomposeValue_schedule (v : Value) (s : State) : (decomposeValue v s).schedule = s.schedule := rfl

@[simp] theorem acceptRender_latch (en : Bool) (pos : Position) (v : Value) (s : State) : (acceptRender en pos v s).latch = s.latch := rfl
@[simp] theorem acceptRender_clock (en : Bool) (pos : Position) (v : Value) (s : State) : (acceptRender en pos v s).clock = s.clock := rfl
@[simp] theorem acceptRender_data (en : Bool) (pos : Position) (v : Value) (s : State) : (acceptRender en pos v s).data = s.data := rfl
@[simp] theorem acceptRender_frame (en : Bool) (pos : Position) (v : Value) (s : State) : (acceptRender en pos v s).frame = s.frame := rfl
@[simp] theorem acceptRender_phase (en : Bool) (pos : Position) (v : Value) (s : State) : (acceptRender en pos v s).phase = s.phase := rfl
@[simp] theorem acceptRender_bitIdx (en : Bool) (pos : Position) (v : Value) (s : State) : (acceptRender en pos v s).bitIdx = s.bitIdx := rfl
@[simp] theorem acceptRender_dwellCnt (en : Bool) (pos : Position) (v : Value) (s : State) : (acceptRender en pos v s).dwellCnt = s.dwellCnt := rfl
@[simp] theorem acceptRender_done (en : Bool) (pos : Position) (v : Value) (s : State) : (acceptRender en pos v s).done = s.done := rfl
@[simp] theorem acceptRender_encPattern (en : Bool) (pos : Position) (v : Value) (s : State) : (acceptRender en pos v s).encPattern = s.encPattern := rfl
@[simp] theorem acceptRender_sr (en : Bool) (pos : Position) (v : Value) (s : State) : (acceptRender en pos v s).sr = s.sr := rfl
@[simp] theorem acceptRender_out (en : Bool) (pos : Position) (v : Value) (s : State) : (acceptRender en pos v s).out = s.out := rfl
@[simp] theorem acceptRender_seconds (en : Bool) (pos : Position) (v : Value) (s : State) : (acceptRender en pos v s).seconds = s.seconds := rfl
@[simp] theorem acceptRender_minutes (en : Bool) (pos : Position) (v : Value) (s : State) : (acceptRender en pos v s).minutes = s.minutes := rfl
@[simp] theorem acceptRender_log (en : Bool) (pos : Position) (v : Value) (s : State) : (acceptRender en pos v s).log = s.log := rfl
@[simp] theorem acceptRender_result (en : Bool) (pos : Position) (v : Value) (s : State) : (acceptRender en pos v s).result = s.result := rfl
@[simp] theorem acceptRender_draws (en : Bool) (pos : Position) (v : Value) (s : State) : (acceptRender en pos v s).draws = s.draws := rfl
@[simp] theorem acceptRender_script (en : Bool) (pos : Position) (v : Value) (s : State) : (acceptRender en pos v s).script = s.script := rfl
@[simp] theorem acceptRender_schedule (en : Bool) (pos : Position) (v : Value) (s : State) : (acceptRender en pos v s).schedule = s.schedule := rfl

@[simp] theorem acceptSend_latch (seg sel : Byte) (s : State) : (acceptSend seg sel s).latch = s.latch := rfl
@[simp] theorem acceptSend_clock (seg sel : Byte) (s : State) : (acceptSend seg sel s).clock = s.clock := rfl
@[simp] theorem acceptSend_data (seg sel : Byte) (s : State) : (acceptSend seg sel s).data = s.data := rfl
@[simp] theorem acceptSend_digits (seg sel : Byte) (s : State) : (acceptSend seg sel s).digits = s.digits := rfl
@[simp] theorem acceptSend_dpEnR (seg sel : Byte) (s : State) : (acceptSend seg sel s).dpEnR = s.dpEnR := rfl
@[simp] theorem acceptSend_dpPosR (seg sel : Byte) (s : State) : (acceptSend seg sel s).dpPosR = s.dpPosR := rfl
@[simp] theorem acceptSend_phase (seg sel : Byte) (s : State) : (acceptSend seg sel s).phase = s.phase := rfl
@[simp] theorem acceptSend_digitIdx (seg sel : Byte) (s : State) : (acceptSend seg sel s).digitIdx = s.digitIdx := rfl
@[simp] theorem acceptSend_bitIdx (seg sel : Byte) (s : State) : (acceptSend seg sel s).bitIdx = s.bitIdx := rfl
@[simp] theorem acceptSend_dwellCnt (seg sel : Byte) (s : State) : (acceptSend seg sel s).dwellCnt = s.dwellCnt := rfl
@[simp] theorem acceptSend_done (seg sel : Byte) (s : State) : (acceptSend seg sel s).done = s.done := rfl
@[simp] theorem acceptSend_encPattern (seg sel : Byte) (s : State) : (acceptSend seg sel s).encPattern = s.encPattern := rfl
@[simp] theorem acceptSend_sr (seg sel : Byte) (s : State) : (acceptSend seg sel s).sr = s.sr := rfl
@[simp] theorem acceptSend_out (seg sel : Byte) (s : State) : (acceptSend seg sel s).out = s.out := rfl
@[simp] theorem acceptSend_seconds (seg sel : Byte) (s : State) : (acceptSend seg sel s).seconds = s.seconds := rfl
@[simp] theorem acceptSend_minutes (seg sel : Byte) (s : State) : (acceptSend seg sel s).minutes = s.minutes := rfl
@[simp] theorem acceptSend_log (seg sel : Byte) (s : State) : (acceptSend seg sel s).log = s.log := rfl
@[simp] theorem acceptSend_result (seg sel : Byte) (s : State) : (acceptSend seg sel s).result = s.result := rfl
@[simp] theorem acceptSend_draws (seg sel : Byte) (s : State) : (acceptSend seg sel s).draws = s.draws := rfl
@[simp] theorem acceptSend_script (seg sel : Byte) (s : State) : (acceptSend seg sel s).script = s.script := rfl
@[simp] theorem acceptSend_schedule (seg sel : Byte) (s : State) : (acceptSend seg sel s).schedule = s.schedule := rfl

@[simp] theorem loadSlot_latch (s : State) : (loadSlot s).latch = s.latch := rfl
@[simp] theorem loadSlot_clock (s : State) : (loadSlot s).clock = s.clock := rfl
@[simp] theorem loadSlot_data (s : State) : (loadSlot s).data = s.data := rfl
@[simp] theorem loadSlot_digits (s : State) : (loadSlot s).digits = s.digits := rfl
@[simp] theorem loadSlot_dpEnR (s : State) : (loadSlot s).dpEnR = s.dpEnR := rfl
@[simp] theorem loadSlot_dpPosR (s : State) : (loadSlot s).dpPosR = s.dpPosR := rfl
@[simp] theorem loadSlot_phase (s : State) : (loadSlot s).phase = s.phase := rfl
@[simp] theorem loadSlot_digitIdx (s : State) : (loadSlot s).digitIdx = s.digitIdx := rfl
@[simp] theorem loadSlot_bitIdx (s : State) : (loadSlot s).bitIdx = s.bitIdx := rfl
@[simp] theorem loadSlot_raw (s : State) : (loadSlot s).raw = s.raw := rfl
@[simp] theorem loadSlot_dwellCnt (s : State) : (loadSlot s).dwellCnt = s.dwellCnt := rfl
@[simp] theorem loadSlot_done (s : State) : (loadSlot s).done = s.done := rfl
@[simp] theorem loadSlot_encPattern (s : State) : (loadSlot s).encPattern = s.encPattern := rfl
@[simp] theorem loadSlot_sr (s : State) : (loadSlot s).sr = s.sr := rfl
@[simp] theorem loadSlot_out (s : State) : (loadSlot s).out = s.out := rfl
@[simp] theorem loadSlot_seconds (s : State) : (loadSlot s).seconds = s.seconds := rfl
@[simp] theorem loadSlot_minutes (s : State) : (loadSlot s).minutes = s.minutes := rfl
@[simp] theorem loadSlot_log (s : State) : (loadSlot s).log = s.log := rfl
@[simp] theorem loadSlot_result (s : State) : (loadSlot s).result = s.result := rfl
@[simp] theorem loadSlot_script (s : State) : (loadSlot s).script = s.script := rfl
@[simp] theorem loadSlot_schedule (s : State) : (loadSlot s).schedule = s.schedule := rfl

@[simp] theorem dwellElapsed_latch (s : State) : (dwellElapsed s).latch = s.latch := rfl
@[simp] theorem dwellElapsed_clock (s : State) : (dwellElapsed s).clock = s.clock := rfl
@[simp] theorem dwellElapsed_data (s : State) : (dwellElapsed s).data = s.data := rfl
@[simp] theorem dwellElapsed_digits (s : State) : (dwellElapsed s).digits = s.digits := rfl
@[simp] theorem dwellElapsed_dpEnR (s : State) : (dwellElapsed s).dpEnR = s.dpEnR := rfl
@[simp] theorem dwellElapsed_dpPosR (s : State) : (dwellElapsed s).dpPosR = s.dpPosR := rfl
@[simp] theorem dwellElapsed_frame (s : State) : (dwellElapsed s).frame = s.frame := rfl
@[simp] theorem dwellElapsed_phase (s : State) : (dwellElapsed s).phase = s.phase := rfl
@[simp] theorem dwellElapsed_digitIdx (s : State) : (dwellElapsed s).digitIdx = s.digitIdx := rfl
@[simp] theorem dwellElapsed_bitIdx (s : State) : (dwellElapsed s).bitIdx = s.bitIdx := rfl
@[simp] theorem dwellElapsed_raw (s : State) : (dwellElapsed s).raw = s.raw := rfl
@[simp] theorem dwellElapsed_done (s : State) : (dwellElapsed s).done = s.done := rfl
@[simp] theorem dwellElapsed_encPattern (s : State) : (dwellElapsed s).encPattern = s.encPattern := rfl
@[simp] theorem dwellElapsed_sr (s : State) : (dwellElapsed s).sr = s.sr := rfl
@[simp] theorem dwellElapsed_out (s : State) : (dwellElapsed s).out = s.out := rfl
@[simp] theorem dwellElapsed_seconds (s : State) : (dwellElapsed s).seconds = s.seconds := rfl
@[simp] theorem dwellElapsed_minutes (s : State) : (dwellElapsed s).minutes = s.minutes := rfl
@[simp] theorem dwellElapsed_result (s : State) : (dwellElapsed s).result = s.result := rfl
@[simp] theorem dwellElapsed_draws (s : State) : (dwellElapsed s).draws = s.draws := rfl
@[simp] theorem dwellElapsed_script (s : State) : (dwellElapsed s).script = s.script := rfl
@[simp] theorem dwellElapsed_schedule (s : State) : (dwellElapsed s).schedule = s.schedule := rfl

@[simp] theorem advanceClock_latch (s : State) : (advanceClock s).latch = s.latch := rfl
@[simp] theorem advanceClock_clock (s : State) : (advanceClock s).clock = s.clock := rfl
@[simp] theorem advanceClock_data (s : State) : (advanceClock s).data = s.data := rfl
@[simp] theorem advanceClock_digits (s : State) : (advanceClock s).digits = s.digits := rfl
@[simp] theorem advanceClock_dpEnR (s : State) : (advanceClock s).dpEnR = s.dpEnR := rfl
@[simp] theorem advanceClock_dpPosR (s : State) : (advanceClock s).dpPosR = s.dpPosR := rfl
@[simp] theorem advanceClock_frame (s : State) : (advanceClock s).frame = s.frame := rfl
@[simp] theorem advanceClock_phase (s : State) : (advanceClock s).phase = s.phase := rfl
@[simp] theorem advanceClock_digitIdx (s : State) : (advanceClock s).digitIdx = s.digitIdx := rfl
@[simp] theorem advanceClock_bitIdx (s : State) : (advanceClock s).bitIdx = s.bitIdx := rfl
@[simp] theorem advanceClock_raw (s : State) : (advanceClock s).raw = s.raw := rfl
@[simp] theorem advanceClock_dwellCnt (s : State) : (advanceClock s).dwellCnt = s.dwellCnt := rfl
@[simp] theorem advanceClock_done (s : State) : (advanceClock s).done = s.done := rfl
@[simp] theorem advanceClock_encPattern (s : State) : (advanceClock s).encPattern = s.encPattern := rfl
@[simp] theorem advanceClock_sr (s : State) : (advanceClock s).sr = s.sr := rfl
@[simp] theorem advanceClock_out (s : State) : (advanceClock s).out = s.out := rfl
@[simp] theorem advanceClock_log (s : State) : (advanceClock s).log = s.log := rfl
@[simp] theorem advanceClock_result (s : State) : (advanceClock s).result = s.result := rfl
@[simp] theorem advanceClock_draws (s : State) : (advanceClock s).draws = s.draws := rfl
@[simp] theorem advanceClock_script (s : State) : (advanceClock s).script = s.script := rfl
@[simp] theorem advanceClock_schedule (s : State) : (advanceClock s).schedule = s.schedule := rfl

@[simp] theorem clearClock_latch (s : State) : (clearClock s).latch = s.latch := rfl
@[simp] theorem clearClock_clock (s : State) : (clearClock s).clock = s.clock := rfl
@[simp] theorem clearClock_data (s : State) : (clearClock s).data = s.data := rfl
@[simp] theorem clearClock_digits (s : State) : (clearClock s).digits = s.digits := rfl
@[simp] theorem clearClock_dpEnR (s : State) : (clearClock s).dpEnR = s.dpEnR := rfl
@[simp] theorem clearClock_dpPosR (s : State) : (clearClock s).dpPosR = s.dpPosR := rfl
@[simp] theorem clearClock_frame (s : State) : (clearClock s).frame = s.frame := rfl
@[simp] theorem clearClock_phase (s : State) : (clearClock s).phase = s.phase := rfl
@[simp] theorem clearClock_digitIdx (s : State) : (clearClock s).digitIdx = s.digitIdx := rfl
@[simp] theorem clearClock_bitIdx (s : State) : (clearClock s).bitIdx = s.bitIdx := rfl
@[simp] theorem clearClock_raw (s : State) : (clearClock s).raw = s.raw := rfl
@[simp] theorem clearClock_dwellCnt (s : State) : (clearClock s).dwellCnt = s.dwellCnt := rfl
@[simp] theorem clearClock_done (s : State) : (clearClock s).done = s.done := rfl
@[simp] theorem clearClock_encPattern (s : State) : (clearClock s).encPattern = s.encPattern := rfl
@[simp] theorem clearClock_sr (s : State) : (clearClock s).sr = s.sr := rfl
@[simp] theorem clearClock_out (s : State) : (clearClock s).out = s.out := rfl
@[simp] theorem clearClock_log (s : State) : (clearClock s).log = s.log := rfl
@[simp] theorem clearClock_result (s : State) : (clearClock s).result = s.result := rfl
@[simp] theorem clearClock_draws (s : State) : (clearClock s).draws = s.draws := rfl
@[simp] theorem clearClock_script (s : State) : (clearClock s).script = s.script := rfl
@[simp] theorem clearClock_schedule (s : State) : (clearClock s).schedule = s.schedule := rfl

@[simp] theorem resetBlock_encPattern (s : State) : (resetBlock s).encPattern = s.encPattern := rfl
@[simp] theorem resetBlock_sr (s : State) : (resetBlock s).sr = s.sr := rfl
@[simp] theorem resetBlock_out (s : State) : (resetBlock s).out = s.out := rfl
@[simp] theorem resetBlock_seconds (s : State) : (resetBlock s).seconds = s.seconds := rfl
@[simp] theorem resetBlock_minutes (s : State) : (resetBlock s).minutes = s.minutes := rfl
@[simp] theorem resetBlock_result (s : State) : (resetBlock s).result = s.result := rfl
@[simp] theorem resetBlock_script (s : State) : (resetBlock s).script = s.script := rfl
@[simp] theorem resetBlock_schedule (s : State) : (resetBlock s).schedule = s.schedule := rfl

@[simp] theorem pinWrite_latch (l : Line) (b : Bool) (s : State) :
    (pinWrite l b s).latch = if l = .latch then b else s.latch := rfl
@[simp] theorem pinWrite_clock (l : Line) (b : Bool) (s : State) :
    (pinWrite l b s).clock = if l = .clock then b else s.clock := rfl
@[simp] theorem pinWrite_data (l : Line) (b : Bool) (s : State) :
    (pinWrite l b s).data = if l = .data then b else s.data := rfl
@[simp] theorem pinWrite_sr (l : Line) (b : Bool) (s : State) : (pinWrite l b s).sr = shiftStage l b s := rfl
@[simp] theorem pinWrite_out (l : Line) (b : Bool) (s : State) : (pinWrite l b s).out = outputStage l b s := rfl
@[simp] theorem pinWrite_log (l : Line) (b : Bool) (s : State) : (pinWrite l b s).log = s.log ++ [.pin l b] := rfl
@[simp] theorem waitMs_log (ms : Nat) (s : State) : (waitMs ms s).log = s.log ++ [.wait ms] := rfl
@[simp] theorem acceptRender_digits (en : Bool) (pos : Position) (v : Value) (s : State) :
    (acceptRender en pos v s).digits = digitsOf v := rfl
@[simp] theorem acceptRender_dpEnR (en : Bool) (pos : Position) (v : Value) (s : State) :
    (acceptRender en pos v s).dpEnR = en := rfl
@[simp] theorem acceptRender_dpPosR (en : Bool) (pos : Position) (v : Value) (s : State) :
    (acceptRender en pos v s).dpPosR = pos := rfl
@[simp] theorem acceptRender_digitIdx (en : Bool) (pos : Position) (v : Value) (s : State) :
    (acceptRender en pos v s).digitIdx = 0 := rfl
@[simp] theorem acceptRender_raw (en : Bool) (pos : Position) (v : Value) (s : State) :
    (acceptRender en pos v s).raw = false := rfl
@[simp] theorem acceptSend_frame (seg sel : Byte) (s : State) : (acceptSend seg sel s).frame = seg ++ sel := rfl
@[simp] theorem acceptSend_raw (seg sel : Byte) (s : State) : (acceptSend seg sel s).raw = true := rfl
@[simp] theorem dwellElapsed_log (s : State) : (dwellElapsed s).log = s.log ++ [.wait Config.tDwellMs] := rfl
@[simp] theorem dwellElapsed_dwellCnt (s : State) : (dwellElapsed s).dwellCnt = 1 := rfl
@[simp] theorem clearClock_seconds (s : State) : (clearClock s).seconds = 0 := rfl
@[simp] theorem clearClock_minutes (s : State) : (clearClock s).minutes = 0 := rfl
@[simp] theorem resetBlock_latch (s : State) : (resetBlock s).latch = false := rfl
@[simp] theorem resetBlock_clock (s : State) : (resetBlock s).clock = false := rfl
@[simp] theorem resetBlock_data (s : State) : (resetBlock s).data = false := rfl
@[simp] theorem resetBlock_phase (s : State) : (resetBlock s).phase = .idle := rfl
@[simp] theorem resetBlock_log (s : State) : (resetBlock s).log = [] := rfl
@[simp] theorem resetBlock_done (s : State) : (resetBlock s).done = false := rfl

end Sys2Proof.Machine
end

