-- ==== Sys2Proof/Laws/Driver.lean ====
section
/-! SUPPORT. What the shared operations of the driver do, said once (spec/41_shift_register_driver.md R101 to R112). -/

namespace Sys2Proof.Machine

open Sys2Proof.Safety

/-- A request in an idle block (R127). -/
theorem whenIdle_idle {f : State → State} {s : State} (h : s.phase = .idle) : whenIdle f s = f s := if_pos h

/-- A request while an operation is in progress (R86, R128). -/
theorem whenIdle_busy {f : State → State} {s : State} (h : s.phase ≠ .idle) : whenIdle f s = s := if_neg h

/-- A property both of the state as it is and of what the request does, in an idle block, holds after the request. -/
theorem whenIdle_induct {f : State → State} {s : State} {P : State → Prop} (busy : s.phase ≠ .idle → P s)
    (idle : s.phase = .idle → P (f s)) : P (whenIdle f s) := by
  unfold whenIdle
  split
  · exact idle ‹_›
  · exact busy ‹_›

/-- The shift stage after one bit has been taken in (R109). -/
def takeIn (sr : BitVec 16) (b : Bool) : BitVec 16 := sr.extractLsb' 0 15 ++ BitVec.ofBool b

/-- The shift stage after the low `n` bits of `w` have been taken in, highest first. -/
def takeInBits (w : Nat → Bool) : Nat → BitVec 16 → BitVec 16
  | 0, sr => sr
  | n + 1, sr => takeInBits w n (takeIn sr (w n))

theorem takeIn_getLsbD (sr : BitVec 16) (b : Bool) (i : Nat) :
    (takeIn sr b).getLsbD i = if i = 0 then b else decide (i < 16) && sr.getLsbD (i - 1) := by
  have h : (takeIn sr b).getLsbD i =
      if i < 1 then (BitVec.ofBool b).getLsbD i else (sr.extractLsb' 0 15).getLsbD (i - 1) :=
    BitVec.getLsbD_append
  rw [h]
  rcases i with _ | i
  · simp
  · have h2 : (i < 15) = (i + 1 < 16) := propext (by omega)
    simp [BitVec.getLsbD_extractLsb', h2]

/-- Taking in `n` bits moves the old content `n` places and leaves the new bits at the bottom (R54, R109). -/
theorem takeInBits_getLsbD (w : Nat → Bool) (n : Nat) (sr : BitVec 16) (i : Nat) :
    (takeInBits w n sr).getLsbD i = (decide (i < 16) && if i < n then w i else sr.getLsbD (i - n)) := by
  induction n generalizing sr with
  | zero =>
    by_cases h : i < 16
    · simp [takeInBits, h]
    · simp [takeInBits, h, BitVec.getLsbD_of_ge sr i (by omega)]
  | succ n ih =>
    rw [takeInBits, ih, takeIn_getLsbD]
    by_cases h16 : i < 16
    · rcases Nat.lt_trichotomy i n with h | h | h
      · simp [h16, h, Nat.lt_succ_of_lt h]
      · subst h; simp [h16]
      · have h1 : ¬ i < n := by omega
        have h2 : ¬ i < n + 1 := by omega
        have h3 : i - n ≠ 0 := by omega
        have h4 : i - n < 16 := by omega
        have h5 : i - n - 1 = i - (n + 1) := by omega
        simp [h16, h1, h2, h3, h4, h5]
    · simp [h16]

theorem takeInBits_byte (w : Byte) (sr : BitVec 16) :
    takeInBits w.getLsbD 8 sr = sr.extractLsb' 0 8 ++ w := by
  apply BitVec.eq_of_getLsbD_eq
  intro i hi
  have ha : (sr.extractLsb' 0 8 ++ w : BitVec 16).getLsbD i =
      if i < 8 then w.getLsbD i else (sr.extractLsb' 0 8).getLsbD (i - 8) :=
    BitVec.getLsbD_append
  rw [takeInBits_getLsbD, ha]
  by_cases h : i < 8
  · simp [h, hi]
  · have : i - 8 < 8 := by omega
    simp [h, hi, this]

theorem takeInBits_frame (f : Frame) (sr : BitVec 16) : takeInBits f.getLsbD 16 sr = f := by
  apply BitVec.eq_of_getLsbD_eq
  intro i hi
  rw [takeInBits_getLsbD]
  simp [hi]

/-- SHIFT_BIT with the clock at rest (R101, R109). -/
theorem shiftOutBit_eq {s : State} (b : Bool) (h : s.clock = false) :
    shiftOutBit b s =
      { s with data := b, clock := false, sr := takeIn s.sr b, log := s.log ++ bitEvents b } := by
  simp [shiftOutBit, pinWrite, shiftStage, outputStage, takeIn, bitEvents, h]

/-- The events of the low `n` bits of a word, highest first. -/
def bitsEvents (w : Nat → Bool) : Nat → List Event
  | 0 => []
  | n + 1 => bitEvents (w n) ++ bitsEvents w n

/-- The level `data` is left at by shifting out `n` bits. -/
def lastData (w : Nat → Bool) (n : Nat) (d : Bool) : Bool := if n = 0 then d else w 0

/-- A step SHIFT_BIT of a SEND in progress with the clock at rest (R101, R109). -/
theorem sendBit_eq {s : State} (b : Bool) (h : s.clock = false) :
    sendBit b s =
      { s with
        data := b
        clock := false
        bitIdx := if s.bitIdx = 0 then 0 else s.bitIdx - 1
        phase := if s.bitIdx = 0 then .latchHi else .dataOut
        done := false
        sr := takeIn s.sr b
        log := s.log ++ bitEvents b } := by
  unfold sendBit
  rw [shiftOutBit_eq b h]
  split
  · next hb => simp [hb]
  · rfl

/-- One less than an index that is not 0. -/
theorem bitIdx_pred {s : State} (h : s.bitIdx ≠ 0) : (s.bitIdx - 1).toNat = s.bitIdx.toNat - 1 := by
  have h' : s.bitIdx.toNat ≠ 0 := fun hc => h (BitVec.eq_of_toNat_eq (by simpa using hc))
  rw [BitVec.toNat_sub]
  simp
  omega

/-- `n + 1` steps SHIFT_BIT of a SEND in progress with the clock at rest, no more than it has left (R102). -/
theorem sendBits_eq (w : Byte) (n : Nat) {s : State} (h : s.clock = false) (hn : n ≤ s.bitIdx.toNat) :
    sendBits w (n + 1) s =
      { s with
        data := w.getLsbD 0
        clock := false
        bitIdx := BitVec.ofNat 4 (s.bitIdx.toNat - (n + 1))
        phase := if n = s.bitIdx.toNat then .latchHi else .dataOut
        done := false
        sr := takeInBits w.getLsbD (n + 1) s.sr
        log := s.log ++ bitsEvents w.getLsbD (n + 1) } := by
  induction n generalizing s with
  | zero =>
    rw [sendBits, sendBits, sendBit_eq _ h]
    by_cases hb : s.bitIdx = 0
    · simp [hb, takeInBits, bitsEvents]
    · have hp := bitIdx_pred hb
      have h0 : ¬ 0 = s.bitIdx.toNat := fun hc => hb (BitVec.eq_of_toNat_eq (by simpa using hc.symm))
      have he : s.bitIdx - 1 = BitVec.ofNat 4 (s.bitIdx.toNat - 1) := by
        rw [← hp, BitVec.ofNat_toNat, BitVec.setWidth_eq]
      simp only [if_neg hb, if_neg h0, he, takeInBits, bitsEvents, List.append_nil]
  | succ n ih =>
    have hb : s.bitIdx ≠ 0 := by
      intro hc
      rw [hc] at hn
      simp at hn
    have hp := bitIdx_pred hb
    have hs := sendBit_eq (w.getLsbD (n + 1)) h
    simp only [hb, if_false] at hs
    have hi : (sendBit (w.getLsbD (n + 1)) s).bitIdx.toNat = s.bitIdx.toNat - 1 := by rw [hs]; exact hp
    rw [sendBits, ih (by rw [hs]) (by omega), hi]
    have e1 : s.bitIdx.toNat - 1 - (n + 1) = s.bitIdx.toNat - (n + 1 + 1) := by omega
    have e2 : (n = s.bitIdx.toNat - 1) = (n + 1 = s.bitIdx.toNat) := propext (by omega)
    rw [hs]
    simp only [e1, e2, takeInBits, bitsEvents, List.append_assoc]

theorem bitsEvents_byte (w : Byte) : bitsEvents w.getLsbD 8 = byteEvents w := by
  simp [bitsEvents, byteEvents]

theorem shiftOutFrame_eq (n : Nat) {s : State} (h : s.clock = false) :
    shiftOutFrame n s =
      { s with
        bitIdx := if n = 0 then s.bitIdx else 0
        data := lastData s.frame.getLsbD n s.data
        sr := takeInBits s.frame.getLsbD n s.sr
        log := s.log ++ bitsEvents s.frame.getLsbD n } := by
  induction n generalizing s with
  | zero => simp [shiftOutFrame, lastData, takeInBits, bitsEvents]
  | succ n ih =>
    rw [shiftOutFrame, shiftOutBit_eq _ (by exact h), ih rfl]
    cases n <;> simp [lastData, takeInBits, bitsEvents, h]

/-- The bits of a frame: digit select below, segments above (R73). -/
theorem frame_getLsbD (seg sel : Byte) (i : Nat) :
    (seg ++ sel : Frame).getLsbD i = if i < 8 then sel.getLsbD i else seg.getLsbD (i - 8) :=
  BitVec.getLsbD_append

theorem bitsEvents_frame (seg sel : Byte) :
    bitsEvents (seg ++ sel : Frame).getLsbD 16 = byteEvents seg ++ byteEvents sel := by
  simp only [bitsEvents, frame_getLsbD]
  simp [byteEvents]

/-- A SEND of the loaded frame with the clock at rest (R104, R105, R112): the receiver ends with exactly the frame. -/
theorem sendFrame_eq {s : State} (seg sel : Byte) (hf : s.frame = seg ++ sel) (h : s.clock = false) :
    sendFrame s =
      { s with
        latch := true
        clock := false
        data := sel.getLsbD 0
        bitIdx := 0
        sr := seg ++ sel
        out := seg ++ sel
        log := s.log ++ sendEvents seg sel } := by
  have h0 : (pinWrite .latch false { s with bitIdx := 15 }).clock = false := h
  have hf0 : (pinWrite .latch false { s with bitIdx := 15 }).frame = seg ++ sel := hf
  rw [sendFrame, shiftOutFrame_eq 16 h0, hf0, takeInBits_frame, bitsEvents_frame]
  have hb : lastData (seg ++ sel : Frame).getLsbD 16 s.data = sel.getLsbD 0 := by
    simp only [lastData, frame_getLsbD]
    rfl
  rw [show (pinWrite .latch false { s with bitIdx := 15 }).data = s.data from rfl, hb]
  simp [pinWrite, shiftStage, outputStage, sendEvents, h, hf]

/-- A bare SEND request in an idle block (R107). -/
theorem requestSend_idle {s : State} (seg sel : Byte) (hp : s.phase = .idle) :
    requestSend seg sel s = { sendFrame (acceptSend seg sel s) with done := true } :=
  whenIdle_idle hp

/-- A bare SEND request in an idle block with the clock at rest (R104, R107). -/
theorem requestSend_eq {s : State} (seg sel : Byte) (hp : s.phase = .idle) (h : s.clock = false) :
    requestSend seg sel s =
      { s with
        latch := true
        clock := false
        data := sel.getLsbD 0
        frame := seg ++ sel
        bitIdx := 0
        raw := true
        done := true
        sr := seg ++ sel
        out := seg ++ sel
        log := s.log ++ sendEvents seg sel } := by
  rw [requestSend_idle seg sel hp, sendFrame_eq seg sel rfl (by exact h)]
  rfl

/-- A bare SEND request while busy (R128). -/
theorem requestSend_busy {s : State} (seg sel : Byte) (hp : s.phase ≠ .idle) : requestSend seg sel s = s :=
  whenIdle_busy hp

end Sys2Proof.Machine
end

