-- ==== Sys2Proof/Laws/Multiplexer.lean ====
section
/-! SUPPORT. What the encoder and the shared operations of the multiplexer do, said once (spec/40_segment_encoder.md R93 to R96,
spec/42_display_multiplexer.md R121 to R125). -/

namespace Sys2Proof.Machine

open Sys2Proof.Safety

/-- The table has an entry for every legal digit (R50). -/
theorem segRead_legal {d : Digit} (h : d.toNat ≤ 9) :
    segRead d = some (~~~(Config.segCC.getD d.toNat 0)) := by
  have hl : d.toNat < Config.segCC.length := Nat.lt_of_le_of_lt h (by decide)
  rw [segRead, List.getElem?_eq_getElem hl, List.getD_eq_getElem?_getD, List.getElem?_eq_getElem hl]
  rfl

/-- The table has no entry for any other (R96). -/
theorem segRead_illegal {d : Digit} (h : 9 < d.toNat) : segRead d = none := by
  have hl : Config.segCC.length ≤ d.toNat := h
  rw [segRead, List.getElem?_eq_none hl]
  rfl

theorem drawsAfterEncode_legal {d : Digit} (h : d.toNat ≤ 9) (s : State) : drawsAfterEncode d s = s.draws := by
  rw [drawsAfterEncode, segRead_legal h]

theorem drawsAfterEncode_illegal {d : Digit} (h : 9 < d.toNat) (s : State) :
    drawsAfterEncode d s = s.draws + 1 := by
  rw [drawsAfterEncode, segRead_illegal h]

theorem encoderAnswer_legal {d : Digit} (h : d.toNat ≤ 9) (dp : Bool) (s : State) :
    encoderAnswer d dp s =
      if dp then ~~~(Config.segCC.getD d.toNat 0) &&& 0x7F else ~~~(Config.segCC.getD d.toNat 0) := by
  rw [encoderAnswer, encoderByte, segRead_legal h]
  rfl

theorem encoderAnswer_illegal {d : Digit} (h : 9 < d.toNat) (dp : Bool) (s : State) :
    encoderAnswer d dp s = Config.freeByte s.draws := by
  rw [encoderAnswer, encoderByte, segRead_illegal h]

theorem dselRead_eq (i : Position) : dselRead i = oneHot i := by
  revert i; decide

theorem decimalDigit_toNat (v : Value) (k : Nat) : (decimalDigit v k).toNat = v.toNat / k % 10 := by
  rw [decimalDigit, BitVec.toNat_ofNat, Nat.mod_eq_of_lt]
  exact Nat.lt_trans (Nat.mod_lt _ (by decide)) (by decide)

theorem decimalDigit_le (v : Value) (k : Nat) : (decimalDigit v k).toNat ≤ 9 := by
  rw [decimalDigit_toNat]
  exact Nat.le_of_lt_succ (Nat.mod_lt _ (by decide))

/-- Every digit of a decomposed value is a decimal digit (R121). -/
theorem digitAt_digitsOf_le (v : Value) (i : Position) : (digitAt (digitsOf v) i).toNat ≤ 9 := by
  unfold digitAt digitsOf
  split
  · exact decimalDigit_le v 1000
  · split
    · exact decimalDigit_le v 100
    · split
      · exact decimalDigit_le v 10
      · exact decimalDigit_le v 1

/-- The slot frame of a pass (R122). -/
theorem slotFrame_pass {s : State} (en : Bool) (pos : Position) (v : Value) (hd : s.digits = digitsOf v)
    (he : s.dpEnR = en) (hp : s.dpPosR = pos) : slotFrame s = passFrame en pos v s.digitIdx := by
  rw [slotFrame, hd, he, hp, encoderAnswer_legal (digitAt_digitsOf_le v _), dselRead_eq]
  simp [passFrame, passPattern, pointAt]

/-- One slot of a pass with the clock at rest (R124). -/
theorem runSlot_eq {s : State} (en : Bool) (pos : Position) (v : Value) (i : Position)
    (hd : s.digits = digitsOf v) (he : s.dpEnR = en) (hp : s.dpPosR = pos) (h : s.clock = false) :
    runSlot i s =
      { s with
        latch := true
        clock := false
        data := (oneHot i).getLsbD 0
        frame := passFrame en pos v i
        digitIdx := i
        bitIdx := 0
        dwellCnt := 1
        sr := passFrame en pos v i
        out := passFrame en pos v i
        log := s.log ++ slotEvents en pos v i } := by
  have hf : (loadSlot { s with digitIdx := i }).frame = passPattern en pos v i ++ oneHot i :=
    slotFrame_pass (s := { s with digitIdx := i }) en pos v hd he hp
  have hdr : (loadSlot { s with digitIdx := i }).draws = s.draws := by
    show drawsAfterEncode (digitAt s.digits i) _ = s.draws
    rw [hd, drawsAfterEncode_legal (digitAt_digitsOf_le v i)]
  rw [runSlot, sendFrame_eq _ _ hf (by exact h)]
  simp only [dwellElapsed, waitMs, hdr, hf]
  simp [loadSlot, slotEvents, passFrame, Config.tDwellMs]

/-- A pass with the clock at rest (R123): the four slots, leftmost first. -/
theorem runPass_eq {s : State} (en : Bool) (pos : Position) (v : Value)
    (hd : s.digits = digitsOf v) (he : s.dpEnR = en) (hp : s.dpPosR = pos) (h : s.clock = false) :
    runPass s =
      { s with
        latch := true
        clock := false
        data := false
        frame := passFrame en pos v 3
        digitIdx := 3
        bitIdx := 0
        dwellCnt := 1
        sr := passFrame en pos v 3
        out := passFrame en pos v 3
        log := s.log ++ passEvents en pos v } := by
  rw [runPass, runSlot_eq en pos v 0 hd he hp h, runSlot_eq en pos v 1 (by exact hd) (by exact he) (by exact hp) rfl,
    runSlot_eq en pos v 2 (by exact hd) (by exact he) (by exact hp) rfl,
    runSlot_eq en pos v 3 (by exact hd) (by exact he) (by exact hp) rfl]
  simp [passEvents, oneHot]

/-- A RENDER request in an idle block (R127). -/
theorem requestRender_idle {s : State} (en : Bool) (pos : Position) (v : Value) (hp : s.phase = .idle) :
    requestRender en pos v s = { runPass (acceptRender en pos v s) with done := true } :=
  whenIdle_idle hp

/-- A RENDER request in an idle block with the clock at rest (R123, R127). -/
theorem requestRender_eq {s : State} (en : Bool) (pos : Position) (v : Value) (hp : s.phase = .idle)
    (h : s.clock = false) :
    requestRender en pos v s =
      { s with
        latch := true
        clock := false
        data := false
        digits := digitsOf v
        dpEnR := en
        dpPosR := pos
        frame := passFrame en pos v 3
        digitIdx := 3
        bitIdx := 0
        raw := false
        dwellCnt := 1
        done := true
        sr := passFrame en pos v 3
        out := passFrame en pos v 3
        log := s.log ++ passEvents en pos v } := by
  rw [requestRender_idle en pos v hp, runPass_eq en pos v rfl rfl rfl (by exact h)]
  rfl

/-- A RENDER request while busy (R128). -/
theorem requestRender_busy {s : State} (en : Bool) (pos : Position) (v : Value) (hp : s.phase ≠ .idle) :
    requestRender en pos v s = s :=
  whenIdle_busy hp

end Sys2Proof.Machine
end

