-- ==== Sys2Proof/Laws/Sequencer.lean ====
section
/-! SUPPORT. What one edge does in each row of the next-state table, said once (spec/42_display_multiplexer.md R130), and what a
run of edges does to one frame. -/

namespace Sys2Proof.Machine

open Sys2Proof.Safety

theorem clockEdge_rst {p : Ports} (h : p.rst = true) (s : State) : clockEdge p s = resetBlock s :=
  if_pos h

theorem clockEdge_run {p : Ports} (h : p.rst = false) (s : State) :
    clockEdge p s = { sequencerEdge p s with done := doneAfter s.phase (sequencerEdge p s).phase } := by
  rw [clockEdge, h]
  rfl

theorem idleEdge_start {p : Ports} (h : p.start = true) (s : State) :
    idleEdge p s = { acceptRender p.dpEn p.dpPos p.value s with phase := .latchLo } :=
  if_pos h

theorem idleEdge_send {p : Ports} (h : p.start = false) (h' : p.sndStart = true) (s : State) :
    idleEdge p s = { acceptSend p.sndSegments p.sndDigitSelect s with phase := .latchLo } := by
  rw [idleEdge, h, h']
  rfl

theorem idleEdge_none {p : Ports} (h : p.start = false) (h' : p.sndStart = false) (s : State) :
    idleEdge p s = s := by
  rw [idleEdge, h, h']
  rfl

theorem latchLoEdge_raw {s : State} (h : s.raw = true) :
    latchLoEdge s = { pinWrite .latch false s with bitIdx := 15, phase := .dataOut } := by
  rw [latchLoEdge, h]
  rfl

theorem latchLoEdge_slot {s : State} (h : s.raw = false) :
    latchLoEdge s = { pinWrite .latch false (loadSlot s) with bitIdx := 15, phase := .dataOut } := by
  rw [latchLoEdge, h]
  rfl

theorem clkLoEdge_last {s : State} (h : s.bitIdx = 0) :
    clkLoEdge s = { pinWrite .clock false s with phase := .latchHi } :=
  if_pos h

theorem clkLoEdge_more {s : State} (h : s.bitIdx ≠ 0) :
    clkLoEdge s = { pinWrite .clock false s with bitIdx := s.bitIdx - 1, phase := .dataOut } :=
  if_neg h

theorem latchHiEdge_raw {s : State} (h : s.raw = true) :
    latchHiEdge s = { pinWrite .latch true s with phase := .idle } :=
  if_pos h

theorem latchHiEdge_slot {s : State} (h : s.raw = false) :
    latchHiEdge s = { pinWrite .latch true s with dwellCnt := Config.dwellCycles, phase := .dwell } := by
  rw [latchHiEdge, h]
  rfl

theorem dwellEdge_hold {s : State} (h : s.dwellCnt ≠ 1) : dwellEdge s = { s with dwellCnt := s.dwellCnt - 1 } :=
  if_pos h

theorem dwellEdge_nextSlot {s : State} (h : s.dwellCnt = 1) (h' : s.digitIdx ≠ 3) :
    dwellEdge s = { waitMs Config.tDwellMs s with digitIdx := s.digitIdx + 1, phase := .latchLo } := by
  rw [dwellEdge, if_neg (not_not.mpr h), if_pos h']

theorem dwellEdge_end {s : State} (h : s.dwellCnt = 1) (h' : s.digitIdx = 3) :
    dwellEdge s = { waitMs Config.tDwellMs s with phase := .idle } := by
  rw [dwellEdge, if_neg (not_not.mpr h), if_neg (not_not.mpr h')]

/-- Inversion of a sequencer edge: the row of the phase, whatever the ports when not idle. -/
theorem sequencerEdge_busy {s : State} (h : s.phase ≠ .idle) (p q : Ports) : sequencerEdge p s = sequencerEdge q s := by
  unfold sequencerEdge
  cases hp : s.phase <;> first | rfl | exact absurd hp h

theorem edges_nil (s : State) : edges [] s = s := rfl

theorem edges_cons (p : Ports) (ps : List Ports) (s : State) : edges (p :: ps) s = edges ps (clockEdge p s) := rfl

theorem edges_append (ps qs : List Ports) (s : State) : edges (ps ++ qs) s = edges qs (edges ps s) := by
  simp [edges]

theorem clockEdge_data {p : Ports} (h : p.rst = false) {s : State} (hp : s.phase = .dataOut) :
    clockEdge p s = { pinWrite .data (s.frame.getLsbD s.bitIdx.toNat) s with phase := .clkHi, done := false } := by
  rw [clockEdge_run h, sequencerEdge, hp]
  rfl

theorem clockEdge_clkHi {p : Ports} (h : p.rst = false) {s : State} (hp : s.phase = .clkHi) :
    clockEdge p s = { pinWrite .clock true s with phase := .clkLo, done := false } := by
  rw [clockEdge_run h, sequencerEdge, hp]
  rfl

theorem clockEdge_clkLo_last {p : Ports} (h : p.rst = false) {s : State} (hp : s.phase = .clkLo) (hb : s.bitIdx = 0) :
    clockEdge p s = { pinWrite .clock false s with phase := .latchHi, done := false } := by
  rw [clockEdge_run h, sequencerEdge, hp]
  simp only [clkLoEdge_last hb]
  rfl

theorem clockEdge_clkLo_more {p : Ports} (h : p.rst = false) {s : State} (hp : s.phase = .clkLo) (hb : s.bitIdx ≠ 0) :
    clockEdge p s =
      { pinWrite .clock false s with bitIdx := s.bitIdx - 1, phase := .dataOut, done := false } := by
  rw [clockEdge_run h, sequencerEdge, hp]
  simp only [clkLoEdge_more hb]
  rfl

theorem clockEdge_latchHi_raw {p : Ports} (h : p.rst = false) {s : State} (hp : s.phase = .latchHi) (hr : s.raw = true) :
    clockEdge p s = { pinWrite .latch true s with phase := .idle, done := true } := by
  rw [clockEdge_run h, sequencerEdge, hp]
  simp only [latchHiEdge_raw hr]
  rfl

theorem clockEdge_latchHi_slot {p : Ports} (h : p.rst = false) {s : State} (hp : s.phase = .latchHi)
    (hr : s.raw = false) :
    clockEdge p s =
      { pinWrite .latch true s with dwellCnt := Config.dwellCycles, phase := .dwell, done := false } := by
  rw [clockEdge_run h, sequencerEdge, hp]
  simp only [latchHiEdge_slot hr]
  rfl

theorem clockEdge_dwell_hold {p : Ports} (h : p.rst = false) {s : State} (hp : s.phase = .dwell)
    (hd : s.dwellCnt ≠ 1) : clockEdge p s = { s with dwellCnt := s.dwellCnt - 1, done := false } := by
  rw [clockEdge_run h, sequencerEdge, hp]
  simp only [dwellEdge_hold hd, doneAfter, hp]
  simp

theorem clockEdge_dwell_nextSlot {p : Ports} (h : p.rst = false) {s : State} (hp : s.phase = .dwell)
    (hd : s.dwellCnt = 1) (hi : s.digitIdx ≠ 3) :
    clockEdge p s =
      { waitMs Config.tDwellMs s with digitIdx := s.digitIdx + 1, phase := .latchLo, done := false } := by
  rw [clockEdge_run h, sequencerEdge, hp]
  simp only [dwellEdge_nextSlot hd hi]
  rfl

theorem clockEdge_dwell_end {p : Ports} (h : p.rst = false) {s : State} (hp : s.phase = .dwell)
    (hd : s.dwellCnt = 1) (hi : s.digitIdx = 3) :
    clockEdge p s = { waitMs Config.tDwellMs s with phase := .idle, done := true } := by
  rw [clockEdge_run h, sequencerEdge, hp]
  simp only [dwellEdge_end hd hi]
  rfl

/-- Three edges shift one bit out (R106, R130). -/
theorem edges_bit_more {p q r : Ports} (hp : p.rst = false) (hq : q.rst = false) (hr : r.rst = false) {s : State}
    (h : s.phase = .dataOut) (hb : s.bitIdx ≠ 0) :
    edges [p, q, r] s =
      { shiftOutBit (s.frame.getLsbD s.bitIdx.toNat) s with
        bitIdx := s.bitIdx - 1, phase := .dataOut, done := false } := by
  rw [edges_cons, edges_cons, edges_cons, edges_nil, clockEdge_data hp h, clockEdge_clkHi hq rfl,
    clockEdge_clkLo_more hr rfl (by exact hb)]
  rfl

/-- Three edges shift the last bit out (R106, R130). -/
theorem edges_bit_last {p q r : Ports} (hp : p.rst = false) (hq : q.rst = false) (hr : r.rst = false) {s : State}
    (h : s.phase = .dataOut) (hb : s.bitIdx = 0) :
    edges [p, q, r] s =
      { shiftOutBit (s.frame.getLsbD 0) s with phase := .latchHi, done := false } := by
  rw [edges_cons, edges_cons, edges_cons, edges_nil, clockEdge_data hp h, clockEdge_clkHi hq rfl,
    clockEdge_clkLo_last hr rfl (by exact hb)]
  rw [hb]
  rfl

/-- Three edges of a SEND in progress are its step SHIFT_BIT of the next bit (R101, R106). -/
theorem edges_bit {p q r : Ports} (hp : p.rst = false) (hq : q.rst = false) (hr : r.rst = false) {s : State}
    (h : s.phase = .dataOut) : edges [p, q, r] s = sendBit (s.frame.getLsbD s.bitIdx.toNat) s := by
  unfold sendBit
  by_cases hb : s.bitIdx = 0
  · rw [edges_bit_last hp hq hr h hb, if_pos hb, hb]
    rfl
  · rw [edges_bit_more hp hq hr h hb, if_neg hb]

/-- A state with another `phase` and another `done`, the two fields the event level leaves alone inside an operation. -/
def withControl (ph : Phase) (dn : Bool) (s : State) : State := { s with phase := ph, done := dn }

theorem withControl_self (s : State) : withControl s.phase s.done s = s := rfl

theorem withControl_withControl (ph ph' : Phase) (dn dn' : Bool) (s : State) :
    withControl ph dn (withControl ph' dn' s) = withControl ph dn s := rfl

theorem pinWrite_withControl (l : Line) (b : Bool) (ph : Phase) (dn : Bool) (s : State) :
    pinWrite l b (withControl ph dn s) = withControl ph dn (pinWrite l b s) := rfl

theorem shiftOutFrame_withControl (n : Nat) (ph : Phase) (dn : Bool) (s : State) :
    shiftOutFrame n (withControl ph dn s) = withControl ph dn (shiftOutFrame n s) := by
  induction n generalizing s with
  | zero => rfl
  | succ n ih => exact ih (shiftOutBit (s.frame.getLsbD n) { s with bitIdx := BitVec.ofNat 4 n })

theorem shiftOutFrame_bitIdx (n : Nat) (b : BitVec 4) (s : State) :
    shiftOutFrame (n + 1) { s with bitIdx := b } = shiftOutFrame (n + 1) s := rfl

theorem shiftOutFrame_phase (n : Nat) (s : State) : (shiftOutFrame n s).phase = s.phase := by
  induction n generalizing s with
  | zero => rfl
  | succ n ih => exact (ih _).trans rfl

theorem shiftOutFrame_raw (n : Nat) (s : State) : (shiftOutFrame n s).raw = s.raw := by
  induction n generalizing s with
  | zero => rfl
  | succ n ih => exact (ih _).trans rfl

theorem sendFrame_withControl (ph : Phase) (dn : Bool) (s : State) :
    sendFrame (withControl ph dn s) = withControl ph dn (sendFrame s) := by
  have h := shiftOutFrame_withControl 16 ph dn (pinWrite .latch false { s with bitIdx := 15 })
  exact congrArg (pinWrite .latch true) h

theorem sendFrame_phase (s : State) : (sendFrame s).phase = s.phase :=
  shiftOutFrame_phase 16 (pinWrite .latch false { s with bitIdx := 15 })

theorem noReset_cons {p : Ports} {ps : List Ports} : NoReset (p :: ps) ↔ p.rst = false ∧ NoReset ps := by
  simp [NoReset]

theorem noReset_append {ps qs : List Ports} : NoReset (ps ++ qs) ↔ NoReset ps ∧ NoReset qs := by
  simp [NoReset, or_imp, forall_and]

/-- 3 x (n + 1) edges shift the low `n + 1` bits of the frame out (R106). -/
theorem edges_bits (n : Nat) (hn : n < 16) (ps : List Ports) (hl : ps.length = 3 * (n + 1)) (hr : NoReset ps) (s : State)
    (hp : s.phase = .dataOut) (hb : s.bitIdx = BitVec.ofNat 4 n) :
    edges ps s = withControl .latchHi false (shiftOutFrame (n + 1) s) := by
  induction n generalizing ps s with
  | zero =>
    match ps, hl with
    | [p, q, r], _ =>
      simp only [noReset_cons] at hr
      have hs : s = { s with bitIdx := 0 } := by
        rw [show (0 : BitVec 4) = s.bitIdx from hb.symm]
      rw [edges_bit_last hr.1 hr.2.1 hr.2.2.1 hp hb]
      conv => lhs; rw [hs]
      rfl
  | succ n ih =>
    match ps, hl with
    | p :: q :: r :: ps, hl =>
      simp only [noReset_cons] at hr
      have hbn : s.bitIdx.toNat = n + 1 := by rw [hb, BitVec.toNat_ofNat]; omega
      have hne : s.bitIdx ≠ 0 := by
        intro hc
        rw [hc] at hbn
        simp at hbn
      have hsub : s.bitIdx - 1 = BitVec.ofNat 4 n := by
        apply BitVec.eq_of_toNat_eq
        rw [BitVec.toNat_sub, hbn, BitVec.toNat_ofNat]
        simp
        omega
      have hstep : edges [p, q, r] s =
          withControl .dataOut false { shiftOutBit (s.frame.getLsbD (n + 1)) s with bitIdx := s.bitIdx - 1 } := by
        rw [edges_bit_more hr.1 hr.2.1 hr.2.2.1 hp hne, hbn]
        rfl
      have hsplit : p :: q :: r :: ps = [p, q, r] ++ ps := rfl
      have hlen : ps.length = 3 * (n + 1) := by
        simp only [List.length_cons] at hl
        omega
      rw [hsplit, edges_append, hstep, ih (by omega) ps hlen hr.2.2.2 _ rfl hsub, shiftOutFrame_withControl,
        withControl_withControl]
      rfl

/-- 3 x (n + 1) edges of a SEND in progress are the steps SHIFT_BIT of its next `n + 1` bits (R102, R106). -/
theorem edges_sendBits (w : Byte) (n : Nat) {ps : List Ports} (hl : ps.length = 3 * (n + 1)) (hr : NoReset ps) {s : State}
    (hp : s.phase = .dataOut) (hn : n ≤ s.bitIdx.toNat)
    (hw : ∀ i, i ≤ n → s.frame.getLsbD (s.bitIdx.toNat - n + i) = w.getLsbD i) :
    edges ps s = sendBits w (n + 1) s := by
  induction n generalizing ps s with
  | zero =>
    match ps, hl with
    | [p, q, r], _ =>
      simp only [noReset_cons] at hr
      rw [edges_bit hr.1 hr.2.1 hr.2.2.1 hp, sendBits, sendBits, ← hw 0 (Nat.le_refl 0)]
      rfl
  | succ n ih =>
    match ps, hl with
    | p :: q :: r :: ps, hl =>
      simp only [noReset_cons] at hr
      have hb : s.bitIdx ≠ 0 := by
        intro hc
        rw [hc] at hn
        simp at hn
      have hlast : s.frame.getLsbD s.bitIdx.toNat = w.getLsbD (n + 1) := by
        rw [← hw (n + 1) (Nat.le_refl _)]
        congr 1
        omega
      have hs : sendBit (w.getLsbD (n + 1)) s =
          { shiftOutBit (w.getLsbD (n + 1)) s with bitIdx := s.bitIdx - 1, phase := .dataOut, done := false } :=
        if_neg hb
      have hi : (sendBit (w.getLsbD (n + 1)) s).bitIdx.toNat = s.bitIdx.toNat - 1 := by
        rw [hs]
        exact bitIdx_pred hb
      have hf : (sendBit (w.getLsbD (n + 1)) s).frame = s.frame := by rw [hs]; rfl
      have hlen : ps.length = 3 * (n + 1) := by
        simp only [List.length_cons] at hl
        omega
      rw [show p :: q :: r :: ps = [p, q, r] ++ ps from rfl, edges_append, edges_bit hr.1 hr.2.1 hr.2.2.1 hp, hlast,
        sendBits]
      refine ih hlen hr.2.2.2 (by rw [hs]) (by omega) fun i hin => ?_
      rw [hf, hi, ← hw i (by omega)]
      congr 1
      omega

/-- The 50 edges of one frame, from LATCH_LO on, perform the SEND of the frame register (R106, R130): `load` is what the first
of them does to the frame register. -/
theorem edges_frame {a c : Ports} {b : List Ports} (ha : a.rst = false) (hc : c.rst = false) (hb : NoReset b)
    (hl : b.length = 48) (s loaded : State) (hp : s.phase = .latchLo) (hraw : loaded.raw = s.raw)
    (hload : loaded = if s.raw then s else loadSlot s) :
    edges (a :: (b ++ [c])) s =
      if s.raw then withControl .idle true (sendFrame loaded)
      else { withControl .dwell false (sendFrame loaded) with dwellCnt := Config.dwellCycles } := by
  have h1 : clockEdge a s = withControl .dataOut false (pinWrite .latch false { loaded with bitIdx := 15 }) := by
    rw [clockEdge_run ha, sequencerEdge, hp]
    simp only
    cases hr : s.raw
    · rw [latchLoEdge_slot hr, hload, hr]
      rfl
    · rw [latchLoEdge_raw hr, hload, hr]
      rfl
  rw [edges_cons, edges_append, h1,
    edges_bits 15 (by omega) b hl hb (withControl .dataOut false (pinWrite .latch false { loaded with bitIdx := 15 }))
      rfl rfl,
    shiftOutFrame_withControl, withControl_withControl, edges_cons, edges_nil]
  have hr2 : (withControl .latchHi false
      (shiftOutFrame (15 + 1) (pinWrite .latch false { loaded with bitIdx := 15 }))).raw = s.raw :=
    (shiftOutFrame_raw 16 (pinWrite .latch false { loaded with bitIdx := 15 })).trans hraw
  cases hr : s.raw
  · rw [clockEdge_latchHi_slot hc rfl (hr2.trans hr)]
    rfl
  · rw [clockEdge_latchHi_raw hc rfl (hr2.trans hr)]
    rfl

theorem noReset_replicate (n : Nat) : NoReset (List.replicate n noRequest) := by
  intro p hp
  rw [List.eq_of_mem_replicate hp]
  rfl

/-- What every edge keeps, a run of edges keeps. -/
theorem edges_induct {P : State → Prop} (h : ∀ (p : Ports) (s : State), P s → P (clockEdge p s)) (ps : List Ports) {s : State}
    (hs : P s) : P (edges ps s) := by
  induction ps generalizing s with
  | nil => exact hs
  | cons p ps ih => exact ih (h p s hs)

/-- A SHIFT_BIT on its own is the three edges that perform it, or nothing (R101, R106). -/
theorem execShiftBit_edges (b : Bool) (s : State) :
    execShiftBit b s = .next (edges (List.replicate (if ShiftBitDue b s then 3 else 0) noRequest) s) := by
  unfold execShiftBit
  split
  · next h =>
    rw [← h.2]
    exact congrArg _ (edges_bit (p := noRequest) (q := noRequest) (r := noRequest) rfl rfl rfl h.1).symm
  · rfl

/-- The bits of the frame a SHIFT_BYTE that is due presents (R102, R104). -/
theorem shiftByteDue_bits {w : Byte} {s : State} (h : ShiftByteDue w s) :
    7 ≤ s.bitIdx.toNat ∧ ∀ i, i ≤ 7 → s.frame.getLsbD (s.bitIdx.toNat - 7 + i) = w.getLsbD i := by
  rcases h.2 with ⟨h1, h2⟩ | ⟨h1, h2⟩
  · refine ⟨by rw [h1]; decide, fun i hi => ?_⟩
    have e : (15 : BitVec 4).toNat - 7 + i = 8 + i := rfl
    rw [h1, ← h2, e, BitVec.getLsbD_extractLsb']
    simp [Nat.lt_succ_of_le hi]
  · refine ⟨by rw [h1]; decide, fun i hi => ?_⟩
    have e : (7 : BitVec 4).toNat - 7 + i = 0 + i := rfl
    rw [h1, ← h2, e, BitVec.getLsbD_extractLsb']
    simp [Nat.lt_succ_of_le hi]

/-- A SHIFT_BYTE on its own is the twenty-four edges that perform it, or nothing (R102, R106). -/
theorem execShiftByte_edges (w : Byte) (s : State) :
    execShiftByte w s = .next (edges (List.replicate (if ShiftByteDue w s then 24 else 0) noRequest) s) := by
  unfold execShiftByte
  split
  · next h =>
    have hb := shiftByteDue_bits h
    exact congrArg _
      (edges_sendBits w 7 (ps := List.replicate 24 noRequest) rfl (noReset_replicate 24) h.1 hb.1 hb.2).symm
  · rfl

end Sys2Proof.Machine
end

