-- ==== Sys2Proof/Laws/Cycles.lean ====
section
/-! SUPPORT. Runs of edges over a whole dwell and a whole slot, the edges an operation in progress still
needs, and the wait for its end (spec/42_display_multiplexer.md R130, R131,
spec/43_environment_timekeeper_modearbiter.md R150). -/

namespace Sys2Proof.Machine

open Sys2Proof.Safety

theorem dwellCycles_pos : 1 ≤ Config.dwellCycles := by
  unfold Config.dwellCycles
  omega

theorem withControl_idle {z : State} (h : z.phase = .idle) (dn : Bool) :
    withControl .idle dn z = { z with done := dn } := by
  rw [withControl, ← h]

theorem loadSlot_withControl (ph : Phase) (dn : Bool) (s : State) :
    loadSlot (withControl ph dn s) = withControl ph dn (loadSlot s) := rfl

theorem shiftOutFrame_digitIdx (n : Nat) (s : State) : (shiftOutFrame n s).digitIdx = s.digitIdx := by
  induction n generalizing s with
  | zero => rfl
  | succ n ih => exact (ih _).trans rfl

theorem sendFrame_digitIdx (s : State) : (sendFrame s).digitIdx = s.digitIdx :=
  shiftOutFrame_digitIdx 16 (pinWrite .latch false { s with bitIdx := 15 })

theorem sendFrame_raw (s : State) : (sendFrame s).raw = s.raw :=
  shiftOutFrame_raw 16 (pinWrite .latch false { s with bitIdx := 15 })

theorem runSlot_raw (i : Position) (s : State) : (runSlot i s).raw = s.raw := by
  rw [runSlot, dwellElapsed_raw, sendFrame_raw, loadSlot_raw]

theorem runSlot_phase (i : Position) (s : State) : (runSlot i s).phase = s.phase := by
  rw [runSlot, dwellElapsed_phase, sendFrame_phase, loadSlot_phase]

/-- A list of 50 cycles is a first, 48 between and a last. -/
theorem fifty_split {ps : List Ports} (h : ps.length = 50) : ∃ a b c, ps = a :: (b ++ [c]) ∧ b.length = 48 := by
  match ps, h with
  | a :: t, h =>
    refine ⟨a, t.dropLast, t.getLast ?_, ?_, ?_⟩
    · intro hc
      subst hc
      simp at h
    · rw [List.dropLast_append_getLast]
    · simp at h ⊢
      omega

/-- Fifty edges from LATCH_LO perform the SEND of the frame register (R106, R130). -/
theorem edges_fifty {ps : List Ports} (hl : ps.length = 50) (hr : NoReset ps) (s loaded : State)
    (hp : s.phase = .latchLo) (hraw : loaded.raw = s.raw) (hload : loaded = if s.raw then s else loadSlot s) :
    edges ps s =
      if s.raw then withControl .idle true (sendFrame loaded)
      else { withControl .dwell false (sendFrame loaded) with dwellCnt := Config.dwellCycles } := by
  obtain ⟨a, b, c, rfl, hb⟩ := fifty_split hl
  have h1 := noReset_cons.mp hr
  have h2 := noReset_append.mp h1.2
  exact edges_frame h1.1 (noReset_cons.mp h2.2).1 h2.1 hb s loaded hp hraw hload

/-- The edges of a dwell (R124, R130). -/
theorem edges_dwell {n : Nat} {ps : List Ports} (hl : ps.length = n) (hr : NoReset ps) (s : State)
    (hp : s.phase = .dwell) (hd : s.dwellCnt = n) (hn : 1 ≤ n) :
    edges ps s =
      if s.digitIdx = 3 then withControl .idle true (dwellElapsed s)
      else { withControl .latchLo false (dwellElapsed s) with digitIdx := s.digitIdx + 1 } := by
  induction n generalizing ps s with
  | zero => omega
  | succ n ih =>
    match ps, hl with
    | p :: ps, hl =>
      have hr' := noReset_cons.mp hr
      by_cases h0 : n = 0
      · subst h0
        have hnil : ps = [] := by
          cases ps with
          | nil => rfl
          | cons _ _ => simp at hl
        have h1 : s.dwellCnt = 1 := hd
        subst hnil
        rw [edges_cons, edges_nil]
        split
        · rw [clockEdge_dwell_end hr'.1 hp hd (by assumption), withControl, dwellElapsed, waitMs, waitMs, ← h1]
        · rw [clockEdge_dwell_nextSlot hr'.1 hp hd (by assumption), withControl, dwellElapsed, waitMs, waitMs, ← h1]
      · rw [edges_cons, clockEdge_dwell_hold hr'.1 hp (by omega),
          ih (by simpa using hl) hr'.2 { s with dwellCnt := s.dwellCnt - 1, done := false } hp (by simp [hd]) (by omega)]
        rfl

/-- The edges of one slot of a pass (R124, R131). -/
theorem edges_slot {ps : List Ports} (hl : ps.length = 50 + Config.dwellCycles) (hr : NoReset ps) {z : State}
    (hraw : z.raw = false) (i : Position) :
    edges ps (withControl .latchLo false { z with digitIdx := i }) =
      if i = 3 then withControl .idle true (runSlot i z)
      else withControl .latchLo false { runSlot i z with digitIdx := i + 1 } := by
  have hs : ps = ps.take 50 ++ ps.drop 50 := (List.take_append_drop 50 ps).symm
  rw [hs] at hr ⊢
  have hr' := noReset_append.mp hr
  have h1 := edges_fifty (ps := ps.take 50) (by simp [hl]) hr'.1
    (withControl .latchLo false { z with digitIdx := i })
    (loadSlot (withControl .latchLo false { z with digitIdx := i })) rfl rfl (by simp [withControl, hraw])
  have hi : (sendFrame (loadSlot { z with digitIdx := i })).digitIdx = i := sendFrame_digitIdx _
  rw [edges_append, h1, if_neg (by simp [withControl, hraw]), loadSlot_withControl, sendFrame_withControl,
    withControl_withControl,
    edges_dwell (n := Config.dwellCycles) (by simp [hl]) hr'.2
      { withControl .dwell false (sendFrame (loadSlot { z with digitIdx := i })) with dwellCnt := Config.dwellCycles }
      rfl rfl dwellCycles_pos]
  show (if (sendFrame (loadSlot { z with digitIdx := i })).digitIdx = 3 then _ else _) = _
  rw [hi]
  split
  · rfl
  · simp only [withControl, dwellElapsed, waitMs, runSlot, hi]

/-- A busy block needs at least one more edge (R134). -/
theorem cyclesToGo_pos {s : State} (h : s.phase ≠ .idle) (hd : DwellCounts s) : 1 ≤ cyclesToGo s := by
  unfold cyclesToGo
  cases hp : s.phase with
  | idle => exact absurd hp h
  | dwell =>
    have := (hd hp).1
    simp only
    omega
  | _ => simp only; omega

/-- An edge without `rst` brings an operation in progress one edge nearer to its end (R131). -/
theorem clockEdge_cyclesToGo {p : Ports} (h : p.rst = false) {s : State} (hp : s.phase ≠ .idle) (hd : DwellCounts s) :
    cyclesToGo (clockEdge p s) + 1 = cyclesToGo s ∧ DwellCounts (clockEdge p s) := by
  cases hs : s.phase with
  | idle => exact absurd hs hp
  | latchLo =>
    rw [clockEdge_run h, sequencerEdge, hs]
    simp only
    cases hr : s.raw
    · rw [latchLoEdge_slot hr]
      simp [cyclesToGo, hs, hr, DwellCounts]
      omega
    · rw [latchLoEdge_raw hr]
      simp [cyclesToGo, hs, hr, DwellCounts]
      omega
  | dataOut =>
    rw [clockEdge_data h hs]
    simp [cyclesToGo, hs, DwellCounts]
    omega
  | clkHi =>
    rw [clockEdge_clkHi h hs]
    simp [cyclesToGo, hs, DwellCounts]
    omega
  | clkLo =>
    by_cases hb : s.bitIdx = 0
    · rw [clockEdge_clkLo_last h hs hb]
      simp [cyclesToGo, hs, DwellCounts, hb]
      omega
    · have hb' : s.bitIdx.toNat ≠ 0 := fun hc => hb (BitVec.eq_of_toNat_eq (by simpa using hc))
      have hsub : (s.bitIdx - 1).toNat = s.bitIdx.toNat - 1 := by
        rw [BitVec.toNat_sub]
        simp
        omega
      rw [clockEdge_clkLo_more h hs hb]
      simp only [cyclesToGo, hs, DwellCounts, pinWrite_raw, pinWrite_digitIdx, hsub]
      refine ⟨?_, by simp⟩
      omega
  | latchHi =>
    cases hr : s.raw
    · rw [clockEdge_latchHi_slot h hs hr]
      simp [cyclesToGo, hs, cyclesAfterFrame, hr, DwellCounts, dwellCycles_pos]
      omega
    · rw [clockEdge_latchHi_raw h hs hr]
      simp [cyclesToGo, hs, cyclesAfterFrame, hr, DwellCounts]
  | dwell =>
    obtain ⟨hc, hr⟩ := hd hs
    by_cases h1 : s.dwellCnt = 1
    · by_cases h2 : s.digitIdx = 3
      · rw [clockEdge_dwell_end h hs h1 h2]
        simp [cyclesToGo, hs, DwellCounts, h1, h2]
      · have h3 : (s.digitIdx + 1).toNat = s.digitIdx.toNat + 1 ∧ s.digitIdx.toNat < 3 := by
          have hall : ∀ i : Position, i ≠ 3 → (i + 1).toNat = i.toNat + 1 ∧ i.toNat < 3 := by decide
          exact hall _ h2
        obtain ⟨k, hk⟩ : ∃ k, 3 - s.digitIdx.toNat = k + 1 := ⟨2 - s.digitIdx.toNat, by omega⟩
        have hk2 : 3 - (s.digitIdx.toNat + 1) = k := by omega
        rw [clockEdge_dwell_nextSlot h hs h1 h2]
        simp only [cyclesToGo, hs, DwellCounts, cyclesAfterFrame, waitMs_raw, h1, h3.1, hr, hk, hk2, Nat.succ_mul]
        refine ⟨?_, by simp⟩
        simp
        omega
    · rw [clockEdge_dwell_hold h hs h1]
      refine ⟨?_, fun _ => ⟨?_, hr⟩⟩
      · simp [cyclesToGo, hs]
        omega
      · simp only
        omega

theorem awaitIdleFor_idle (n : Nat) {s : State} (h : s.phase = .idle) : awaitIdleFor n s = s := by
  cases n with
  | zero => rfl
  | succ n => exact if_pos h

/-- Nothing to wait for (R150). -/
theorem awaitIdle_idle {s : State} (h : s.phase = .idle) : awaitIdle s = s := awaitIdleFor_idle _ h

/-- The wait is a run of edges with no port asserted, the block busy before each (R150). -/
theorem awaitIdleFor_edges (n : Nat) (s : State) :
    ∃ k, awaitIdleFor n s = edges (List.replicate k noRequest) s ∧
      ∀ m, m < k → (edges (List.replicate m noRequest) s).busy = true := by
  induction n generalizing s with
  | zero => exact ⟨0, rfl, fun m h => absurd h (Nat.not_lt_zero m)⟩
  | succ n ih =>
    rw [awaitIdleFor]
    split
    · exact ⟨0, rfl, fun m h => absurd h (Nat.not_lt_zero m)⟩
    · next hp =>
      obtain ⟨k, h1, h2⟩ := ih (clockEdge noRequest s)
      refine ⟨k + 1, h1, fun m hm => ?_⟩
      cases m with
      | zero => exact decide_eq_true hp
      | succ m => exact h2 m (Nat.lt_of_succ_lt_succ hm)

/-- The edges an operation still needs end it (R131). -/
theorem awaitIdleFor_phase {n : Nat} {s : State} (hn : cyclesToGo s ≤ n) (hd : DwellCounts s) :
    (awaitIdleFor n s).phase = .idle := by
  induction n generalizing s with
  | zero =>
    show s.phase = .idle
    by_contra hp
    have := cyclesToGo_pos hp hd
    omega
  | succ n ih =>
    rw [awaitIdleFor]
    split
    · assumption
    · next hp =>
      obtain ⟨h1, h2⟩ := clockEdge_cyclesToGo (p := noRequest) rfl hp hd
      exact ih (by omega) h2

/-- What the wait does: it ends with the block idle, and with the first edge after which it is (R150). -/
theorem awaitIdle_waits {s : State} (hd : DwellCounts s) : WaitsUntilIdle s (awaitIdle s) := by
  obtain ⟨n, h1, h2⟩ := awaitIdleFor_edges (cyclesToGo s) s
  exact ⟨n, h1, by simp [State.busy, awaitIdle, awaitIdleFor_phase (Nat.le_refl _) hd], h2⟩

/-- What every edge keeps, the wait keeps. -/
theorem awaitIdle_induct {P : State → Prop} (h : ∀ (p : Ports) (s : State), P s → P (clockEdge p s)) {s : State}
    (hs : P s) : P (awaitIdle s) := by
  obtain ⟨n, h1, -⟩ := awaitIdleFor_edges (cyclesToGo s) s
  rw [awaitIdle, h1]
  exact edges_induct h _ hs

/-- No edge touches the environment (R40, R174). -/
theorem clockEdge_environment (p : Ports) (s : State) :
    (clockEdge p s).seconds = s.seconds ∧ (clockEdge p s).minutes = s.minutes ∧ (clockEdge p s).script = s.script ∧
      (clockEdge p s).schedule = s.schedule ∧ (clockEdge p s).result = s.result := by
  unfold clockEdge sequencerEdge idleEdge latchLoEdge clkLoEdge latchHiEdge dwellEdge
  repeat' split
  all_goals exact ⟨rfl, rfl, rfl, rfl, rfl⟩

/-- Nor does the wait (R150). -/
theorem awaitIdle_environment (s : State) :
    (awaitIdle s).seconds = s.seconds ∧ (awaitIdle s).minutes = s.minutes ∧ (awaitIdle s).script = s.script ∧
      (awaitIdle s).schedule = s.schedule ∧ (awaitIdle s).result = s.result :=
  awaitIdle_induct
    (P := fun t => t.seconds = s.seconds ∧ t.minutes = s.minutes ∧ t.script = s.script ∧ t.schedule = s.schedule ∧
      t.result = s.result)
    (fun p t h => by
      obtain ⟨h1, h2, h3, h4, h5⟩ := clockEdge_environment p t
      rw [h1, h2, h3, h4, h5]
      exact h)
    ⟨rfl, rfl, rfl, rfl, rfl⟩

/-- An edge without `rst` keeps a pass's digits decimal (R25, R121). -/
theorem clockEdge_passDigits {p : Ports} (h : p.rst = false) {s : State} (hd : PassDigitsDecimal s) :
    PassDigitsDecimal (clockEdge p s) := by
  have d : ∀ k, (decimalDigit p.value k).toNat ≤ 9 := decimalDigit_le p.value
  rw [clockEdge_run h]
  unfold PassDigitsDecimal at *
  unfold sequencerEdge idleEdge latchLoEdge clkLoEdge latchHiEdge dwellEdge
  cases hp : s.phase <;> simp only [hp] at hd <;> (repeat' split) <;>
    simp_all [dataEdge, clkHiEdge, digitsOf]

/-- The encoder port's fields set: what a presented operand changes (R95). -/
def withPort (e : Byte) (n : Nat) (s : State) : State := { s with encPattern := e, draws := n }

theorem presentEncoder_withPort (d : Digit) (dp : Bool) (s : State) :
    presentEncoder d dp s = withPort (encoderAnswer d dp s) (drawsAfterEncode d s) s := rfl

theorem digitAt_le {ds : Digits} (h : ds.d0.toNat ≤ 9 ∧ ds.d1.toNat ≤ 9 ∧ ds.d2.toNat ≤ 9 ∧ ds.d3.toNat ≤ 9)
    (i : Position) : (digitAt ds i).toNat ≤ 9 := by
  unfold digitAt
  obtain ⟨h0, h1, h2, h3⟩ := h
  repeat' split
  all_goals assumption

/-- A slot of decimal digits is loaded whatever the port shows, and draws nothing (R96, R122). -/
theorem loadSlot_withPort {s : State} (h : (digitAt s.digits s.digitIdx).toNat ≤ 9) (e : Byte) (n : Nat) :
    loadSlot (withPort e n s) = withPort e n (loadSlot s) := by
  simp only [loadSlot, withPort, slotFrame, encoderAnswer_legal h, drawsAfterEncode_legal h]

theorem loadSlot_draws_legal {s : State} (h : (digitAt s.digits s.digitIdx).toNat ≤ 9) :
    (loadSlot s).draws = s.draws := by
  rw [loadSlot, drawsAfterEncode_legal h]

/-- An edge without `rst` neither reads the encoder port's fields nor writes them (R128, 90_conflicts.md C10). -/
theorem clockEdge_withPort {p : Ports} (h : p.rst = false) {s : State} (hd : PassDigitsDecimal s) (e : Byte) (n : Nat) :
    clockEdge p (withPort e n s) = withPort e n (clockEdge p s) := by
  have hph : (withPort e n s).phase = s.phase := rfl
  rw [clockEdge_run h, clockEdge_run h]
  unfold sequencerEdge
  rw [hph]
  cases hp : s.phase with
  | idle =>
    simp only [idleEdge]
    repeat' split
    all_goals rfl
  | latchLo =>
    simp only [latchLoEdge]
    cases hr : s.raw
    · have hl := digitAt_le (hd ⟨by simp [hp], hr⟩) s.digitIdx
      have hr' : (withPort e n s).raw = false := hr
      simp only [hr', loadSlot_withPort hl]
      rfl
    · have hr' : (withPort e n s).raw = true := hr
      simp only [hr']
      rfl
  | dataOut => rfl
  | clkHi => rfl
  | clkLo =>
    simp only [clkLoEdge]
    repeat' split
    all_goals first | rfl | contradiction
  | latchHi =>
    simp only [latchHiEdge]
    repeat' split
    all_goals first | rfl | contradiction
  | dwell =>
    simp only [dwellEdge]
    repeat' split
    all_goals first | rfl | contradiction

/-- The wait with the encoder port in use is the wait alone, but for the port's fields (R95, R128, R150). -/
theorem awaitIdleFor_withPort (n : Nat) {s : State} (hd : PassDigitsDecimal s) (e : Byte) (k : Nat) :
    awaitIdleFor n (withPort e k s) = withPort e k (awaitIdleFor n s) := by
  induction n generalizing s with
  | zero => rfl
  | succ n ih =>
    have hph : (withPort e k s).phase = s.phase := rfl
    rw [awaitIdleFor, awaitIdleFor, hph, clockEdge_withPort rfl hd, ih (clockEdge_passDigits rfl hd)]
    split <;> rfl

/-- The inputs of iterations set in advance (log 10). -/
def withScript (l : List ArbInputs) (s : State) : State := { s with script := l }

/-- An edge without a request does not read them (R140). -/
theorem clockEdge_withScript (l : List ArbInputs) (s : State) :
    clockEdge noRequest (withScript l s) = withScript l (clockEdge noRequest s) := by
  have hph : (withScript l s).phase = s.phase := rfl
  rw [clockEdge_run rfl, clockEdge_run rfl]
  unfold sequencerEdge
  rw [hph]
  cases hp : s.phase with
  | idle => rfl
  | latchLo =>
    simp only [latchLoEdge]
    have hr : (withScript l s).raw = s.raw := rfl
    cases h : s.raw <;> simp only [hr, h] <;> rfl
  | dataOut => rfl
  | clkHi => rfl
  | clkLo =>
    simp only [clkLoEdge]
    repeat' split
    all_goals first | rfl | contradiction
  | latchHi =>
    simp only [latchHiEdge]
    repeat' split
    all_goals first | rfl | contradiction
  | dwell =>
    simp only [dwellEdge]
    repeat' split
    all_goals first | rfl | contradiction

theorem awaitIdleFor_withScript (n : Nat) (l : List ArbInputs) (s : State) :
    awaitIdleFor n (withScript l s) = withScript l (awaitIdleFor n s) := by
  induction n generalizing s with
  | zero => rfl
  | succ n ih =>
    have hph : (withScript l s).phase = s.phase := rfl
    rw [awaitIdleFor, awaitIdleFor, hph, clockEdge_withScript, ih]
    split <;> rfl

/-- Edges with the encoder port in use are the edges alone, but for the port's fields (R95, R128). -/
theorem cycles_edges {ps : List Ports} (h : NoReset ps) {s : State} (hd : PassDigitsDecimal s) :
    ∃ e n, cycles ps s = withPort e n (edges ps s) := by
  suffices hs : ∀ e n, ∃ e' n', cycles ps (withPort e n s) = withPort e' n' (edges ps s) from hs s.encPattern s.draws
  induction ps generalizing s with
  | nil => exact fun e n => ⟨e, n, rfl⟩
  | cons p ps ih =>
    intro e n
    obtain ⟨h1, h2⟩ := noReset_cons.mp h
    have hc : cycle p (withPort e n s) =
        withPort (encoderAnswer p.encDigit p.encDp (withPort e n s)) (drawsAfterEncode p.encDigit (withPort e n s))
          (clockEdge p s) := clockEdge_withPort h1 hd _ _
    show ∃ e' n', cycles ps (cycle p (withPort e n s)) = withPort e' n' (edges ps (clockEdge p s))
    rw [hc]
    exact ih h2 (clockEdge_passDigits h1 hd) _ _

end Sys2Proof.Machine
end

