-- ==== Sys2Proof/Laws/Decode.lean ====
section
/-! SUPPORT. Bits of request words, said once (spec/30_encoding.md R73 to R76). -/

namespace Sys2Proof

/-- A bit of two fields joined: the second field lies below. -/
theorem getLsbD_fields {m n : Nat} (a : BitVec m) (b : BitVec n) (i : Nat) :
    (a ++ b).getLsbD i = if i < n then b.getLsbD i else a.getLsbD (i - n) :=
  BitVec.getLsbD_append

/-- Above a word's width every bit is 0. -/
theorem getLsbD_above {w : RequestWord} {n : Nat} (h : w.toNat < 2 ^ n) {j : Nat} (hj : n ≤ j) :
    w.getLsbD j = false := by
  rw [BitVec.getLsbD]
  exact Nat.testBit_lt_two_pow (Nat.lt_of_lt_of_le h (Nat.pow_le_pow_right (by decide) hj))

/-- A word within its width is the field of that width with the same bits, widened. -/
theorem setWidth_of_bits {w : RequestWord} {n : Nat} (h : w.toNat < 2 ^ n) (f : BitVec n)
    (hf : ∀ i, i < n → f.getLsbD i = w.getLsbD i) : f.setWidth 24 = w := by
  apply BitVec.eq_of_getLsbD_eq
  intro i hi
  rw [BitVec.getLsbD_setWidth]
  by_cases hn : i < n
  · simp [hi, hf i hn]
  · rw [getLsbD_above h (Nat.le_of_not_lt hn), BitVec.getLsbD_of_ge f i (Nat.le_of_not_lt hn), Bool.and_false]

/-- Under the mask a word has the row's fixed bits. -/
theorem getLsbD_fixed {w m p : RequestWord} (h : w &&& m = p) {i : Nat} (hm : m.getLsbD i = true) :
    w.getLsbD i = p.getLsbD i := by
  rw [← h, BitVec.getLsbD_and, hm, Bool.and_true]

/-- A field of at most 24 bits, widened to a request word, keeps its number. -/
theorem toNat_widened {n : Nat} (f : BitVec n) (h : n ≤ 24) : (f.setWidth 24).toNat = f.toNat := by
  rw [BitVec.toNat_setWidth]
  exact Nat.mod_eq_of_lt (Nat.lt_of_lt_of_le f.isLt (Nat.pow_le_pow_right (by decide) h))

/-- What decoding answers for a word of the row (R76). -/
theorem decode_ok {k : Select} {w : RequestWord} (h : w.toNat < 2 ^ k.row.width)
    (h' : w &&& k.row.mask = k.row.pattern) : decode k w = .ok (k.operands w) := by
  rw [decode, if_neg (Nat.not_le.mpr h), if_neg (by simpa using h')]

/-- What an accepted word is (R76). -/
theorem of_decode_ok {k : Select} {w : RequestWord} {i : Instr} (h : decode k w = .ok i) :
    w.toNat < 2 ^ k.row.width ∧ w &&& k.row.mask = k.row.pattern ∧ i = k.operands w := by
  unfold decode at h
  split at h
  · cases h
  · split at h
    · cases h
    · next h1 h2 =>
      cases h
      exact ⟨Nat.lt_of_not_le h1, by simpa using h2, rfl⟩

end Sys2Proof
end

