-- ==== Sys2Proof/Laws/Frames.lean ====
section
/-! SUPPORT. What the shared operations leave alone in every state, whatever the lines' levels, and the ways a step can answer a
next state, said once. -/

namespace Sys2Proof.Machine

/-- A step SHIFT_BIT of a SEND in progress writes the lines, both stages, `bit_idx`, `phase`, `done` and the log, nothing else
(R100, R101). -/
theorem sendBit_frame (b : Bool) (s : State) :
    sendBit b s =
      { s with
        clock := (sendBit b s).clock
        data := (sendBit b s).data
        phase := (sendBit b s).phase
        bitIdx := (sendBit b s).bitIdx
        done := (sendBit b s).done
        sr := (sendBit b s).sr
        log := (sendBit b s).log } := by
  unfold sendBit
  split <;> rfl

/-- The steps SHIFT_BIT of a byte (R102). -/
theorem sendBits_frame (w : Byte) (n : Nat) (s : State) :
    sendBits w n s =
      { s with
        clock := (sendBits w n s).clock
        data := (sendBits w n s).data
        phase := (sendBits w n s).phase
        bitIdx := (sendBits w n s).bitIdx
        done := (sendBits w n s).done
        sr := (sendBits w n s).sr
        log := (sendBits w n s).log } := by
  induction n generalizing s with
  | zero => rfl
  | succ n ih =>
    rw [sendBits, ih]
    conv => rhs; rw [sendBit_frame]
    rw [sendBit_frame]

/-- Shifting a frame out writes the lines, both stages, `bit_idx` and the log, nothing else (R29, R100, R104). -/
theorem shiftOutFrame_frame (n : Nat) (s : State) :
    shiftOutFrame n s =
      { s with
        latch := (shiftOutFrame n s).latch
        clock := (shiftOutFrame n s).clock
        data := (shiftOutFrame n s).data
        bitIdx := (shiftOutFrame n s).bitIdx
        sr := (shiftOutFrame n s).sr
        out := (shiftOutFrame n s).out
        log := (shiftOutFrame n s).log } := by
  induction n generalizing s with
  | zero => rfl
  | succ n ih =>
    rw [shiftOutFrame, ih]
    rfl

/-- A SEND of the loaded frame (R104). -/
theorem sendFrame_frame (s : State) :
    sendFrame s =
      { s with
        latch := (sendFrame s).latch
        clock := (sendFrame s).clock
        data := (sendFrame s).data
        bitIdx := (sendFrame s).bitIdx
        sr := (sendFrame s).sr
        out := (sendFrame s).out
        log := (sendFrame s).log } := by
  rw [sendFrame, shiftOutFrame_frame]
  rfl

/-- One slot (R124): beside a SEND's, the frame register, `digit_idx`, the dwell counter and the draws are written. -/
theorem runSlot_frame (i : Position) (s : State) :
    runSlot i s =
      { s with
        latch := (runSlot i s).latch
        clock := (runSlot i s).clock
        data := (runSlot i s).data
        frame := (runSlot i s).frame
        digitIdx := i
        bitIdx := (runSlot i s).bitIdx
        dwellCnt := 1
        sr := (runSlot i s).sr
        out := (runSlot i s).out
        log := (runSlot i s).log
        draws := (runSlot i s).draws } := by
  rw [runSlot, sendFrame_frame]
  rfl

/-- One pass (R123). -/
theorem runPass_frame (s : State) :
    runPass s =
      { s with
        latch := (runPass s).latch
        clock := (runPass s).clock
        data := (runPass s).data
        frame := (runPass s).frame
        digitIdx := 3
        bitIdx := (runPass s).bitIdx
        dwellCnt := 1
        sr := (runPass s).sr
        out := (runPass s).out
        log := (runPass s).log
        draws := (runPass s).draws } := by
  rw [runPass, runSlot_frame 3, runSlot_frame 2, runSlot_frame 1, runSlot_frame 0]

/-- The ways a step answers a next state (log 3). -/
theorem step_next {s t : State} (h : step s = .next t) :
    (s.schedule = [] ∧ s.phase = .idle ∧ exec .arbIterate s = .next t) ∨
    (s.schedule = [] ∧ s.phase ≠ .idle ∧ t = clockEdge noRequest s) ∨
    (∃ p rest, s.schedule = .clk p :: rest ∧ t = cycle p { s with schedule := rest }) ∨
    (∃ k w rest i, s.schedule = .op k w :: rest ∧ decode k w = .ok i ∧
      exec i { s with schedule := rest } = .next t) := by
  unfold step at h
  split at h
  · next hs =>
    unfold runUnscheduled at h
    split at h
    · exact .inl ⟨hs, ‹_›, h⟩
    · cases h
      exact .inr (.inl ⟨hs, ‹_›, rfl⟩)
  · next hs =>
    cases h
    exact .inr (.inr (.inl ⟨_, _, hs, rfl⟩))
  · next hs =>
    unfold runRequest at h
    split at h
    · next hd => exact .inr (.inr (.inr ⟨_, _, _, _, hs, hd, h⟩))
    · cases h

end Sys2Proof.Machine
end

