-- ==== Sys2Proof/Laws/Observer.lean ====
section
/-! SUPPORT. What the observer of the lines makes of the protocol's events, said once (spec/41_shift_register_driver.md R105, R109,
R110), that a SEND is one whole frame of the trace (R56, R63), and that the log accounts for everything the shared operations do to
the lines and the receiver (R39, R62). -/

namespace Sys2Proof.Safety

open Sys2Proof.Machine

/-- The two spellings of the shift stage's next value agree (R109). -/
theorem shl_takeIn (sr : BitVec 16) (b : Bool) :
    (sr <<< 1) ||| (BitVec.ofBool b).setWidth 16 = takeIn sr b := by
  apply BitVec.eq_of_getLsbD_eq
  intro i hi
  rw [takeIn_getLsbD, BitVec.getLsbD_or, BitVec.getLsbD_shiftLeft, BitVec.getLsbD_setWidth]
  rcases i with _ | i
  · simp
  · simp [hi]

/-- The wires after `n` bits of `f` have been shifted out from a clock at rest. -/
def wiresAfter (w : Wires) (f : Nat → Bool) (n : Nat) : Wires :=
  { w with data := lastData f n w.data, clock := false, sr := takeInBits f n w.sr }

theorem wiresAfter_zero {w : Wires} (f : Nat → Bool) (h : w.clock = false) : wiresAfter w f 0 = w := by
  simp [wiresAfter, lastData, takeInBits, ← h]

theorem wiresAfter_succ (w : Wires) (f : Nat → Bool) (n : Nat) :
    wiresAfter { w with data := f n, clock := false, sr := takeIn w.sr (f n) } f n = wiresAfter w f (n + 1) := by
  cases n <;> simp [wiresAfter, lastData, takeInBits]

theorem replay_append (w : Wires) (es es' : List Event) : replay w (es ++ es') = replay (replay w es) es' :=
  List.foldl_append

theorem replay_bits {w : Wires} (f : Nat → Bool) (n : Nat) (h : w.clock = false) (es : List Event) :
    replay w (bitsEvents f n ++ es) = replay (wiresAfter w f n) es := by
  induction n generalizing w with
  | zero => rw [wiresAfter_zero f h]; rfl
  | succ n ih =>
    have h1 : replay w (bitEvents (f n) ++ (bitsEvents f n ++ es)) =
        replay { w with data := f n, clock := false, sr := takeIn w.sr (f n) } (bitsEvents f n ++ es) := by
      simp [replay, bitEvents, observe, h, shl_takeIn]
    rw [bitsEvents, List.append_assoc, h1, ih rfl, wiresAfter_succ]

theorem clockRises_bits {w : Wires} (f : Nat → Bool) (n : Nat) (h : w.clock = false) (es : List Event) :
    clockRises w (bitsEvents f n ++ es) =
      ((List.range n).map fun k => (f (n - 1 - k), w.latch)) ++ clockRises (wiresAfter w f n) es := by
  induction n generalizing w with
  | zero => rw [wiresAfter_zero f h]; rfl
  | succ n ih =>
    have h1 : clockRises w (bitEvents (f n) ++ (bitsEvents f n ++ es)) =
        (f n, w.latch) ::
          clockRises { w with data := f n, clock := false, sr := takeIn w.sr (f n) } (bitsEvents f n ++ es) := by
      simp [clockRises, bitEvents, observe, h, shl_takeIn]
    have e : ∀ a, n + 1 - 1 - (a + 1) = n - 1 - a := fun a => by omega
    rw [bitsEvents, List.append_assoc, h1, ih rfl, wiresAfter_succ, List.range_succ_eq_map]
    simp only [List.map_cons, List.map_map, Function.comp_def, Nat.succ_eq_add_one, e]
    rfl

theorem clockFalls_bits {w : Wires} (f : Nat → Bool) (n : Nat) (h : w.clock = false) (es : List Event) :
    clockFalls w (bitsEvents f n ++ es) = List.replicate n w.latch ++ clockFalls (wiresAfter w f n) es := by
  induction n generalizing w with
  | zero => rw [wiresAfter_zero f h]; rfl
  | succ n ih =>
    have h1 : clockFalls w (bitEvents (f n) ++ (bitsEvents f n ++ es)) =
        w.latch ::
          clockFalls { w with data := f n, clock := false, sr := takeIn w.sr (f n) } (bitsEvents f n ++ es) := by
      simp [clockFalls, bitEvents, observe, h, shl_takeIn]
    rw [bitsEvents, List.append_assoc, h1, ih rfl, wiresAfter_succ, List.replicate_succ]
    rfl

theorem commits_bits {w : Wires} (f : Nat → Bool) (n : Nat) (h : w.clock = false) (es : List Event) :
    commits w (bitsEvents f n ++ es) = commits (wiresAfter w f n) es := by
  induction n generalizing w with
  | zero => rw [wiresAfter_zero f h]; rfl
  | succ n ih =>
    have h1 : commits w (bitEvents (f n) ++ (bitsEvents f n ++ es)) =
        commits { w with data := f n, clock := false, sr := takeIn w.sr (f n) } (bitsEvents f n ++ es) := by
      simp [commits, bitEvents, observe, h, shl_takeIn]
    rw [bitsEvents, List.append_assoc, h1, ih rfl, wiresAfter_succ]

/-- The events of a frame in the order of its bits, bit 15 first (R104). -/
theorem sendEvents_bits (seg sel : Byte) :
    sendEvents seg sel =
      .pin .latch false :: (bitsEvents (seg ++ sel : Frame).getLsbD 16 ++ [.pin .latch true]) := by
  rw [bitsEvents_frame]
  rfl

/-- The scan of two pieces of a trace is that of the second from where the first ends (R56). -/
theorem scanFrames_append (f : FrameScan) (es es' : List Event) :
    scanFrames f (es ++ es') = (scanFrames f es).bind fun g => scanFrames g es' := by
  simp [scanFrames, List.foldlM_append]

theorem scanFrames_cons {f g : FrameScan} {e : Event} (h : f.next e = some g) (es : List Event) :
    scanFrames f (e :: es) = scanFrames g es := by
  simp [scanFrames, h]

/-- The bits of a frame are one more whole pulse each (R63). -/
theorem scanFrames_bits (f : Nat → Bool) (n : Nat) {m : Nat} (h : m + n ≤ 16) (es : List Event) :
    scanFrames (.between m) (bitsEvents f n ++ es) = scanFrames (.between (m + n)) es := by
  induction n generalizing m with
  | zero => rfl
  | succ n ih =>
    have h1 : FrameScan.next (.between m) (.pin .clock true) = some (.within (m + 1)) := if_pos (by omega)
    have h2 : FrameScan.next (.between m) (.pin .data (f n)) = some (.between m) := rfl
    have h3 : FrameScan.next (.within (m + 1)) (.pin .clock false) = some (.between (m + 1)) := rfl
    rw [bitsEvents, bitEvents]
    simp only [List.cons_append, List.nil_append]
    rw [scanFrames_cons h2, scanFrames_cons h1, scanFrames_cons h3, ih (by omega), show m + 1 + n = m + (n + 1) by omega]

/-- A SEND is one whole frame (R56, R63, R104). -/
theorem scanFrames_send (seg sel : Byte) (es : List Event) :
    scanFrames .outside (sendEvents seg sel ++ es) = scanFrames .outside es := by
  have h1 : FrameScan.next .outside (.pin .latch false) = some (.between 0) := rfl
  have h2 : FrameScan.next (.between (0 + 16)) (.pin .latch true) = some .outside := rfl
  rw [sendEvents_bits]
  simp only [List.cons_append, List.append_assoc]
  rw [scanFrames_cons h1, scanFrames_bits _ 16 (by omega), List.nil_append, scanFrames_cons h2]

/-- `t` is `s` after some logged events, which explain what became of the lines and the receiver (R39, R62). -/
def LogAccounts (s t : State) : Prop :=
  ∃ es, t.log = s.log ++ es ∧ wiresOf t = replay (wiresOf s) es

theorem LogAccounts.of_same {s t : State} (h : t.log = s.log) (h' : wiresOf t = wiresOf s) : LogAccounts s t :=
  ⟨[], by rw [h, List.append_nil], h'⟩

theorem LogAccounts.trans {s t u : State} (h : LogAccounts s t) (h' : LogAccounts t u) : LogAccounts s u := by
  obtain ⟨a, h1, h2⟩ := h
  obtain ⟨b, h3, h4⟩ := h'
  exact ⟨a ++ b, by rw [h3, h1, List.append_assoc], by rw [h4, h2, replay_append]⟩

theorem pinWrite_logAccounts (l : Line) (b : Bool) (s : State) : LogAccounts s (pinWrite l b s) := by
  refine ⟨[.pin l b], rfl, ?_⟩
  rcases s with ⟨lt, ck⟩
  cases l <;> cases b <;> cases lt <;> cases ck <;>
    simp [wiresOf, replay, observe, pinWrite, shiftStage, outputStage, shl_takeIn, takeIn]

theorem waitMs_logAccounts (ms : Nat) (s : State) : LogAccounts s (waitMs ms s) := ⟨[.wait ms], rfl, rfl⟩

theorem shiftOutBit_logAccounts (b : Bool) (s : State) : LogAccounts s (shiftOutBit b s) :=
  ((pinWrite_logAccounts _ _ _).trans (pinWrite_logAccounts _ _ _)).trans (pinWrite_logAccounts _ _ _)

theorem sendBit_logAccounts (b : Bool) (s : State) : LogAccounts s (sendBit b s) := by
  unfold sendBit
  split <;> exact (shiftOutBit_logAccounts b s).trans (.of_same rfl rfl)

theorem sendBits_logAccounts (w : Byte) (n : Nat) (s : State) : LogAccounts s (sendBits w n s) := by
  induction n generalizing s with
  | zero => exact .of_same rfl rfl
  | succ n ih => exact (sendBit_logAccounts _ _).trans (ih _)

theorem shiftOutFrame_logAccounts (n : Nat) (s : State) : LogAccounts s (shiftOutFrame n s) := by
  induction n generalizing s with
  | zero => exact .of_same rfl rfl
  | succ n ih =>
    have h : LogAccounts s { s with bitIdx := BitVec.ofNat 4 n } := .of_same rfl rfl
    exact (h.trans (shiftOutBit_logAccounts _ _)).trans (ih _)

theorem sendFrame_logAccounts (s : State) : LogAccounts s (sendFrame s) := by
  have h : LogAccounts s { s with bitIdx := 15 } := .of_same rfl rfl
  unfold sendFrame
  exact ((h.trans (pinWrite_logAccounts _ _ _)).trans (shiftOutFrame_logAccounts 16 _)).trans
    (pinWrite_logAccounts _ _ _)

theorem runSlot_logAccounts (i : Position) (s : State) : LogAccounts s (runSlot i s) := by
  have h : LogAccounts s (loadSlot { s with digitIdx := i }) := .of_same rfl rfl
  have h' : ∀ u, LogAccounts u (dwellElapsed u) := fun u => waitMs_logAccounts 2 { u with dwellCnt := 1 }
  unfold runSlot
  exact (h.trans (sendFrame_logAccounts _)).trans (h' _)

theorem runPass_logAccounts (s : State) : LogAccounts s (runPass s) := by
  unfold runPass
  exact (((runSlot_logAccounts _ _).trans (runSlot_logAccounts _ _)).trans (runSlot_logAccounts _ _)).trans
    (runSlot_logAccounts _ _)

end Sys2Proof.Safety
end

