-- ==== Sys2Proof/Laws/PerInstr.lean ====
section
/-! SUPPORT. A statement made of every instruction, one lemma per constructor: the encoder's word is a word of the row it selects
(spec/30_encoding.md R76, opcode_table.json). -/

namespace Sys2Proof.Laws.EncodedWord

/-- The encoder's word lies within its row's width and carries the row's fixed bits. -/
def Statement (i : Instr) : Prop :=
  (Sys2Proof.encode i).2.toNat < 2 ^ (Sys2Proof.encode i).1.row.width ∧
    (Sys2Proof.encode i).2 &&& (Sys2Proof.encode i).1.row.mask = (Sys2Proof.encode i).1.row.pattern

/-- A field widened to a request word is a word of a row that fixes nothing. -/
theorem of_field {n : Nat} (f : BitVec n) (h : n ≤ 24) :
    (f.setWidth 24).toNat < 2 ^ n ∧ f.setWidth 24 &&& (0 : RequestWord) = 0 :=
  ⟨by rw [toNat_widened f h]; exact f.isLt, BitVec.and_zero⟩

theorem encode (d : Digit) : Statement (.encode d) := by revert d; unfold Statement; decide
theorem applyDp (p : Byte) : Statement (.applyDp p) := of_field p (by decide)
theorem encodeDp (e : Bool) (d : Digit) : Statement (.encodeDp e d) := of_field (BitVec.ofBool e ++ d) (by decide)
theorem shiftBit (b : Bool) : Statement (.shiftBit b) := of_field (BitVec.ofBool b) (by decide)
theorem shiftByte (w : Byte) : Statement (.shiftByte w) := of_field w (by decide)
theorem send (s m : Byte) : Statement (.send s m) := of_field (s ++ m) (by decide)
theorem decompose (x : BitVec 3) (v : Value) : Statement (.decompose x v) := of_field (x ++ v) (by decide)
theorem render (e : Bool) (p : Position) (v : Value) : Statement (.render e p v) :=
  of_field (BitVec.ofBool e ++ p ++ v) (by decide)
theorem tkAdvance : Statement .tkAdvance := by unfold Statement; decide
theorem tkReset : Statement .tkReset := by unfold Statement; decide
theorem arbIterate : Statement .arbIterate := by unfold Statement; decide
theorem seg0 (p : Bool) : Statement (.seg0 p) := by revert p; unfold Statement; decide
theorem seg1 (p : Bool) : Statement (.seg1 p) := by revert p; unfold Statement; decide
theorem seg2 (p : Bool) : Statement (.seg2 p) := by revert p; unfold Statement; decide
theorem seg3 (p : Bool) : Statement (.seg3 p) := by revert p; unfold Statement; decide
theorem seg4 (p : Bool) : Statement (.seg4 p) := by revert p; unfold Statement; decide
theorem seg5 (p : Bool) : Statement (.seg5 p) := by revert p; unfold Statement; decide
theorem seg6 (p : Bool) : Statement (.seg6 p) := by revert p; unfold Statement; decide
theorem seg7 (p : Bool) : Statement (.seg7 p) := by revert p; unfold Statement; decide
theorem seg8 (p : Bool) : Statement (.seg8 p) := by revert p; unfold Statement; decide
theorem seg9 (p : Bool) : Statement (.seg9 p) := by revert p; unfold Statement; decide
theorem dsel0 : Statement .dsel0 := by unfold Statement; decide
theorem dsel1 : Statement .dsel1 := by unfold Statement; decide
theorem dsel2 : Statement .dsel2 := by unfold Statement; decide
theorem dsel3 : Statement .dsel3 := by unfold Statement; decide

end Sys2Proof.Laws.EncodedWord
end

