-- ==== Sys2Proof/Tests/Slice0.lean ====
section
/-! SUPPORT. Tests whose expected results are written out in spec/95_test_vectors.md (V, P and S numbers) and opcode_table.json,
and for each statement with hypotheses a witness that meets them. -/

namespace Sys2Proof.Tests

open Sys2Proof.Machine Sys2Proof.Safety

/-- The next state, if there is one. -/
def after (o : Host.Outcome State Fault Refusal) : Option State :=
  match o with
  | .next t => some t
  | .fault _ => none
  | .refused _ => none

/-- The state right after reset with the sequencer in another phase. -/
def inPhase (p : Phase) : State := { State.reset with phase := p }

/-- The state right after reset with a clock. -/
def withClock (sec mins : Nat) : State := { State.reset with seconds := sec, minutes := mins }

/-- The state right after reset with the inputs of one iteration, no tick in it. -/
def withButtons (resetButton modeButton : Bool) (sample : BitVec 16) (s : State) : State :=
  { s with script := [⟨0, resetButton, 0, modeButton, sample, 0⟩] }

/-- The state right after reset with one action scheduled. -/
def scheduled (a : Action) : State := { State.reset with schedule := [a] }

/-- The ports of a cycle that asks for the SEND of V12. -/
def askSend : Ports := { noRequest with sndStart := true, sndSegments := 0xA4, sndDigitSelect := 0x04 }

/-- The two levels of a line in a trace, as spec/95_test_vectors.md writes them. -/
def l0 : Event := .pin .latch false
def l1 : Event := .pin .latch true
def c0 : Event := .pin .clock false
def c1 : Event := .pin .clock true
def d0 : Event := .pin .data false
def d1 : Event := .pin .data true

/-! ### Well-formedness (R82): the one operand value the spec calls illegal -/

theorem test_wellFormed_nine : (Instr.encode 9).wellFormed = true := by decide
theorem test_wellFormed_refuses_encode_ten : (Instr.encode 10).wellFormed = false := by decide
theorem test_wellFormed_refuses_encodeDp_fifteen : (Instr.encodeDp true 15).wellFormed = false := by decide

/-! ### Decoding: words written out from the encoding of each row (R76, opcode_table.json) -/

theorem test_decode_encode : decode .encode 0b01001 = .ok (.encode 9) := by rfl
theorem test_decode_applyDp : decode .applyDp 0b10010010 = .ok (.applyDp 0x92) := by rfl
theorem test_decode_encodeDp : decode .encodeDp 0b10101 = .ok (.encodeDp true 5) := by rfl
theorem test_decode_shiftBit : decode .shiftBit 0b1 = .ok (.shiftBit true) := by rfl
theorem test_decode_shiftByte : decode .shiftByte 0b10100100 = .ok (.shiftByte 0xA4) := by rfl
theorem test_decode_send : decode .send 0b1010010000000100 = .ok (.send 0xA4 0x04) := by rfl
theorem test_decode_decompose : decode .decompose 0b1010000001000010010 = .ok (.decompose 5 530) := by rfl
theorem test_decode_render : decode .render 0b1010000001000010010 = .ok (.render true 1 530) := by rfl
theorem test_decode_render_off : decode .render 0x10212 = .ok (.render false 1 530) := by rfl
theorem test_decode_tkAdvance : decode .tkAdvance 0 = .ok .tkAdvance := by rfl
theorem test_decode_tkReset : decode .tkReset 0 = .ok .tkReset := by rfl
theorem test_decode_arbIterate : decode .arbIterate 0 = .ok .arbIterate := by rfl
theorem test_decode_seg0 : decode .seg0 0xC0 = .ok (.seg0 true) := by rfl
theorem test_decode_seg1 : decode .seg1 0x79 = .ok (.seg1 false) := by rfl
theorem test_decode_seg2 : decode .seg2 0xA4 = .ok (.seg2 true) := by rfl
theorem test_decode_seg3 : decode .seg3 0x30 = .ok (.seg3 false) := by rfl
theorem test_decode_seg4 : decode .seg4 0x99 = .ok (.seg4 true) := by rfl
theorem test_decode_seg5 : decode .seg5 0x12 = .ok (.seg5 false) := by rfl
theorem test_decode_seg6 : decode .seg6 0x82 = .ok (.seg6 true) := by rfl
theorem test_decode_seg7 : decode .seg7 0x78 = .ok (.seg7 false) := by rfl
theorem test_decode_seg8 : decode .seg8 0x80 = .ok (.seg8 true) := by rfl
theorem test_decode_seg9 : decode .seg9 0x10 = .ok (.seg9 false) := by rfl
theorem test_decode_dsel0 : decode .dsel0 0b00000001 = .ok .dsel0 := by rfl
theorem test_decode_dsel1 : decode .dsel1 0b00000010 = .ok .dsel1 := by rfl
theorem test_decode_dsel2 : decode .dsel2 0b00000100 = .ok .dsel2 := by rfl
theorem test_decode_dsel3 : decode .dsel3 0b00001000 = .ok .dsel3 := by rfl
theorem test_decode_encode_with_point : decode .encode 0b11001 = .error .fixedBits := by rfl
theorem test_decode_dsel0_other : decode .dsel0 0b00000011 = .error .fixedBits := by rfl
theorem test_decode_render_wide : decode .render 0x80000 = .error .tooWide := by rfl
theorem test_decode_tkReset_wide : decode .tkReset 1 = .error .tooWide := by rfl

/-- V30, V38, V12: request words as the vectors give them. -/
theorem test_encode_render : encode (.render true 2 1234) = (.render, 0x604D2) := by decide
theorem test_encode_send : encode (.send 0xA4 0x04) = (.send, 0xA404) := by decide

/-- Bare words of the table (log 2): V30's REQ19, V12's FRAME16, a mask, a pattern, a bare byte. -/
theorem test_tableWord_render : decodeTableWord 19 0x50212 = some (.render true 1 530) := by decide
theorem test_tableWord_send : decodeTableWord 16 0xA404 = some (.send 0xA4 0x04) := by decide
theorem test_tableWord_dsel : decodeTableWord 8 0x08 = some .dsel3 := by decide
theorem test_tableWord_seg : decodeTableWord 8 0xC0 = some (.seg0 true) := by decide
theorem test_tableWord_wide : decodeTableWord 24 0x80000 = none := by decide

/-! ### SegmentEncoder -/

/-- V1. -/
theorem test_encode_five : (after (exec (.encode 5) State.reset)).map (·.result) = some 0x92 := by rfl
theorem test_encodeDp_five : (after (exec (.encodeDp true 5) State.reset)).map (·.result) = some 0x12 := by rfl
theorem test_encodeDp_eight : (after (exec (.encodeDp true 8) State.reset)).map (·.encPattern) = some 0x00 := by rfl
/-- V2. -/
theorem test_applyDp_ff : (after (exec (.applyDp 0xFF) State.reset)).map (·.result) = some 0x7F := by rfl
theorem test_applyDp_80 : (after (exec (.applyDp 0x80) State.reset)).map (·.result) = some 0x00 := by rfl
/-- V4: out of range the instruction runs on; the byte is free. -/
theorem test_encode_ten_runs : (after (exec (.encode 10) State.reset)).map (·.phase) = some .idle := by rfl

/-- Rows SEG_0 to SEG_9 and DSEL_0 to DSEL_3: V1's two pattern columns and R51's masks. -/
theorem test_seg0 : (after (exec (.seg0 true) State.reset)).map (·.result) = some 0xC0 := by rfl
theorem test_seg1 : (after (exec (.seg1 false) State.reset)).map (·.result) = some 0x79 := by rfl
theorem test_seg2 : (after (exec (.seg2 true) State.reset)).map (·.result) = some 0xA4 := by rfl
theorem test_seg3 : (after (exec (.seg3 false) State.reset)).map (·.result) = some 0x30 := by rfl
theorem test_seg4 : (after (exec (.seg4 true) State.reset)).map (·.result) = some 0x99 := by rfl
theorem test_seg5 : (after (exec (.seg5 false) State.reset)).map (·.result) = some 0x12 := by rfl
theorem test_seg6 : (after (exec (.seg6 true) State.reset)).map (·.result) = some 0x82 := by rfl
theorem test_seg7 : (after (exec (.seg7 false) State.reset)).map (·.result) = some 0x78 := by rfl
theorem test_seg8 : (after (exec (.seg8 true) State.reset)).map (·.result) = some 0x80 := by rfl
theorem test_seg9 : (after (exec (.seg9 false) State.reset)).map (·.result) = some 0x10 := by rfl
theorem test_dsel0 : (after (exec .dsel0 State.reset)).map (·.result) = some 0x01 := by rfl
theorem test_dsel1 : (after (exec .dsel1 State.reset)).map (·.result) = some 0x02 := by rfl
theorem test_dsel2 : (after (exec .dsel2 State.reset)).map (·.result) = some 0x04 := by rfl
theorem test_dsel3 : (after (exec .dsel3 State.reset)).map (·.result) = some 0x08 := by rfl

/-! ### ShiftRegisterDriver and receiver -/

/-- The state right after reset with a SEND of a frame come to the bit of the given index. -/
def atBit (f : Frame) (i : BitVec 4) : State := { inPhase .dataOut with frame := f, bitIdx := i }

/-- V10, within a SEND whose next bit it is. -/
theorem test_shiftBit_log : (after (exec (.shiftBit true) (atBit 0x8000 15))).map (·.log) = some [d1, c1, c0] := by rfl
theorem test_shiftBit_sr :
    (after (exec (.shiftBit false) { atBit 0x8000 14 with sr := 0xC008 })).map (·.sr) = some 0x8010 := by rfl

/-- V11, within the SEND of V12 and within one whose second byte it is. -/
theorem test_shiftByte_log :
    (after (exec (.shiftByte 0xA4) (atBit 0xA404 15))).map (·.log) =
      some [d1, c1, c0, d0, c1, c0, d1, c1, c0, d0, c1, c0, d0, c1, c0, d1, c1, c0, d0, c1, c0, d0, c1, c0] := by
  rfl
theorem test_shiftByte_sr :
    (after (exec (.shiftByte 0xA4) { atBit 0xC0A4 7 with sr := 0x12C0 })).map (·.sr) = some 0xC0A4 := by rfl

/-- V12. -/
theorem test_send_log :
    (after (exec (.send 0xA4 0x04) State.reset)).map (·.log) =
      some [l0, d1, c1, c0, d0, c1, c0, d1, c1, c0, d0, c1, c0, d0, c1, c0, d1, c1, c0, d0, c1, c0, d0, c1, c0,
        d0, c1, c0, d0, c1, c0, d0, c1, c0, d0, c1, c0, d0, c1, c0, d1, c1, c0, d0, c1, c0, d0, c1, c0, l1] := by
  rfl
theorem test_send_out :
    (after (exec (.send 0xFF 0xFF) State.reset)).map (fun t => (t.out, t.data, t.latch)) = some (0xFFFF, true, true) := by
  rfl

/-- V18: `l1` from a high latch commits nothing; a frame cut short after four rising edges leaves `SR` at 0x0082. -/
theorem test_latch_high_again :
    (pinWrite .latch true { State.reset with latch := true, sr := 0xA404, out := 0xC008 }).out = 0xC008 := by rfl
theorem test_frame_cut_short :
    (replay ⟨true, false, false, 0xC008, 0xC008⟩ [l0, d0, c1, c0, d0, c1, c0, d1, c1, c0, d0, c1]).sr = 0x0082 := by rfl

/-- V55. -/
theorem test_lit_point : lit 0x1202 1 7 = true := by rfl
theorem test_lit_dark : lit 0x1202 1 1 = false ∧ lit 0x1202 0 0 = false ∧ lit 0xC008 3 5 = true := by decide

/-! ### DisplayMultiplexer -/

/-- V26, V27. -/
theorem test_decompose_overflow :
    (after (exec (.decompose 0 12345) State.reset)).map (·.digits) = some ⟨2, 3, 4, 5⟩ := by rfl
theorem test_decompose_largest :
    (after (exec (.decompose 7 65535) State.reset)).map (·.digits) = some ⟨5, 5, 3, 5⟩ := by rfl

/-- V30: the frames committed by a pass. -/
theorem test_render_commits :
    (after (exec (.render true 1 530) State.reset)).map (fun t => commits (wiresOf State.reset) t.log) =
      some [0xC001, 0x1202, 0xB004, 0xC008] := by
  decide +kernel
/-- V33: the point at position 3, and the end of a pass. -/
theorem test_render_end :
    (after (exec (.render true 3 9999) State.reset)).map (fun t => (t.out, t.latch, t.data, t.digitIdx)) =
      some (0x1008, true, false, 3) := by
  decide +kernel

/-! ### The cycle level (V17, V50, V52, V54) -/

theorem test_edge_render_first :
    (clockEdge { noRequest with start := true, sndStart := true, value := 530 } State.reset).digits = ⟨0, 5, 3, 0⟩ := by
  rfl
theorem test_edge_last_bit : (clockEdge noRequest { inPhase .clkLo with bitIdx := 0 }).phase = .latchHi := by rfl
theorem test_edge_send_ends :
    (clockEdge noRequest { inPhase .latchHi with raw := true, sr := 0xA404 }).done = true := by rfl
theorem test_edge_rst_keeps_receiver :
    (clockEdge { noRequest with rst := true } { inPhase .clkLo with clock := true, sr := 0x0082, out := 0xC008 }).out =
      0xC008 := by
  rfl

/-! ### Environment -/

/-- V42, V44. -/
theorem test_tkAdvance_carry :
    (after (exec .tkAdvance (withClock 59 4))).map (fun t => (t.seconds, t.minutes)) = some (0, 5) := by rfl
theorem test_tkAdvance_wrap :
    (after (exec .tkAdvance (withClock 59 99))).map (fun t => (t.seconds, t.minutes)) = some (0, 0) := by rfl
/-- V47. -/
theorem test_tkReset :
    (after (exec .tkReset (withClock 45 12))).map (fun t => (t.seconds, t.minutes)) = some (0, 0) := by rfl
/-- V60, V66: the last frame and the digits of a Time-mode pass. -/
theorem test_arbIterate_time :
    (after (exec .arbIterate (withButtons true true 0 (withClock 45 12)))).map (fun t => (t.digits, t.out)) =
      some (⟨1, 2, 4, 5⟩, 0x9208) := by
  decide +kernel
/-- V65: sample 0 in Voltage mode, the point at position 0. -/
theorem test_arbIterate_voltage :
    (after (exec .arbIterate (withButtons true false 0 State.reset))).map (fun t => (t.digits, t.dpPosR)) =
      some (⟨0, 0, 0, 0⟩, 0) := by
  decide +kernel

/-! ### Steps -/

theorem test_step_runs_word :
    (after (step (State.reset.withFetchWord 19 0x50212))).map (fun t => (t.digits, t.schedule)) =
      some (⟨0, 5, 3, 0⟩, []) := by
  decide +kernel
theorem test_step_refuses_word :
    step (scheduled (.op .encode 0x15)) = .refused .wordFixedBits := by rfl

/-! ### Witnesses: for each statement with hypotheses, values that meet them -/

theorem witness_EncodeOfDecodeIsSame : decode .render 0x7FFFF = .ok (.render true 3 65535) := by rfl

theorem witness_DecodeAcceptsExactlyTheRowsWords :
    2 ^ Select.render.row.width ≤ (0x80000 : RequestWord).toNat ∧
    ((0x10 : RequestWord).toNat < 2 ^ Select.encode.row.width ∧
      (0x10 : RequestWord) &&& Select.encode.row.mask ≠ Select.encode.row.pattern) ∧
    ((0x7FFFF : RequestWord).toNat < 2 ^ Select.render.row.width ∧
      (0x7FFFF : RequestWord) &&& Select.render.row.mask = Select.render.row.pattern) := by
  decide

theorem witness_StepRunsDecodedRequest :
    (scheduled (.op .render 0x50212)).schedule = .op .render 0x50212 :: [] ∧
      decode .render 0x50212 = .ok (.render true 1 530) :=
  ⟨rfl, rfl⟩

theorem witness_StepRunsPlacedWord :
    decodeTableWord 0 0 = some .arbIterate ∧ decodeTableWord 19 0x7FFFF = some (.render true 3 65535) := by
  decide

theorem witness_StepRefusesWordsOfNoRow :
    ((scheduled (.op .render 0x80000)).schedule = .op .render 0x80000 :: [] ∧
      decode .render 0x80000 = .error .tooWide) ∧
    ((scheduled (.op .encode 0x10)).schedule = .op .encode 0x10 :: [] ∧ decode .encode 0x10 = .error .fixedBits) :=
  ⟨⟨rfl, rfl⟩, rfl, rfl⟩

theorem witness_StepClocksOrIterates :
    (scheduled (.clk noRequest)).schedule = .clk noRequest :: [] ∧
    (State.reset.schedule = [] ∧ State.reset.phase = .idle) ∧
    ((inPhase .dwell).schedule = [] ∧ (inPhase .dwell).phase ≠ .idle) := by
  decide

theorem witness_RstAbandonsEverything : { noRequest with rst := true, start := true }.rst = true := by rfl

theorem witness_EncodeAnswersComplement : (0 : Digit).toNat ≤ 9 ∧ (9 : Digit).toNat ≤ 9 := by decide

theorem witness_EncodeDpAnswersPatternWithPoint : (0 : Digit).toNat ≤ 9 ∧ (9 : Digit).toNat ≤ 9 := by decide

theorem witness_EncodeOutsideTableRunsOn : 9 < (10 : Digit).toNat ∧ 9 < (15 : Digit).toNat := by decide

theorem witness_SegmentPatternsAreDistinct :
    (8 : Digit).toNat ≤ 9 ∧ (9 : Digit).toNat ≤ 9 ∧
    exec (.encodeDp true 8) State.reset = .next { State.reset with encPattern := 0x00, result := 0x00 } ∧
    exec (.encodeDp false 9) State.reset = .next { State.reset with encPattern := 0x90, result := 0x90 } :=
  ⟨by decide, by decide, rfl, rfl⟩

theorem witness_PatternsShowTheirDigit :
    ((9 : Digit).toNat ≤ 9 ∧
      exec (.encodeDp true 9) State.reset = .next { State.reset with encPattern := 0x10, result := 0x10 }) ∧
    (shownDigit 0x00 = some 8 ∧ shownDigit 0x90 = some 9) ∧
    (shownPosition 0x08 = some 3 ∧ shownPosition 0x10 = none) :=
  ⟨⟨by decide, rfl⟩, by decide, by decide⟩

theorem witness_ShiftByteTakesEightBitsIn :
    ((atBit 0xA404 15).phase = .dataOut ∧ (atBit 0xA404 15).clock = false ∧ (atBit 0xA404 15).bitIdx = 15 ∧
      (atBit 0xA404 15).frame.extractLsb' 8 8 = 0xA4) ∧
    ((atBit 0xA404 7).phase = .dataOut ∧ (atBit 0xA404 7).clock = false ∧ (atBit 0xA404 7).bitIdx = 7 ∧
      (atBit 0xA404 7).frame.extractLsb' 0 8 = 0x04) ∧
    ¬ (State.reset.phase = .dataOut ∧
      (State.reset.bitIdx = 15 ∧ State.reset.frame.extractLsb' 8 8 = 0xA4 ∨
        State.reset.bitIdx = 7 ∧ State.reset.frame.extractLsb' 0 8 = 0xA4)) := by
  decide

theorem witness_SendPutsTheFrameInTheReceiver : State.reset.phase = .idle ∧ State.reset.clock = false := by decide

theorem witness_SendKeepsTheProtocol : State.reset.phase = .idle ∧ State.reset.clock = false := by decide

theorem witness_OutputsAreFrozenDuringSend :
    State.reset.phase = .idle ∧ State.reset.clock = false ∧
    (∃ t, exec (.send 0xA4 0x04) State.reset = .next t) ∧ 49 < 50 ∧ 50 ≤ 50 :=
  ⟨rfl, rfl, ⟨_, rfl⟩, by decide, by decide⟩

theorem witness_DriverOperationsExpand :
    ((atBit 0xA404 15).phase = .dataOut ∧ (atBit 0xA404 15).bitIdx = 15 ∧
      (atBit 0xA404 15).frame.extractLsb' 8 8 = 0xA4) ∧
    ∃ t u v, State.reset.phase = .idle ∧ askSend.rst = false ∧ askSend.start = false ∧ askSend.sndStart = true ∧
      noRequest.rst = false ∧ exec (.send askSend.sndSegments askSend.sndDigitSelect) State.reset = .next t ∧
      exec (.shiftByte askSend.sndSegments) (clockEdge noRequest (clockEdge askSend State.reset)) = .next u ∧
      exec (.shiftByte askSend.sndDigitSelect) u = .next v :=
  ⟨by decide, _, _, _, rfl, rfl, rfl, rfl, rfl, rfl, rfl, rfl⟩

theorem witness_RequestsAreIgnoredWhileBusy :
    ((inPhase .latchLo).phase ≠ .idle ∧ (inPhase .dwell).phase ≠ .idle) ∧
    ((inPhase .dataOut).phase ≠ .idle ∧
      ¬ ((inPhase .dataOut).phase = .dataOut ∧
        (inPhase .dataOut).frame.getLsbD (inPhase .dataOut).bitIdx.toNat = true) ∧
      ¬ ((inPhase .dataOut).phase = .dataOut ∧
        ((inPhase .dataOut).bitIdx = 15 ∧ (inPhase .dataOut).frame.extractLsb' 8 8 = 0 ∨
          (inPhase .dataOut).bitIdx = 7 ∧ (inPhase .dataOut).frame.extractLsb' 0 8 = 0))) := by
  decide

/-- In mid-frame, with the clock high, a SHIFT_BIT on its own adds no pulse, nor does one in an idle block (R56, R63). -/
theorem witness_NoOperationDisturbsABusyBlock :
    { inPhase .clkLo with clock := true }.phase ≠ .idle ∧
    exec (.shiftBit true) { inPhase .clkLo with clock := true } = .next { inPhase .clkLo with clock := true } ∧
    exec (.shiftBit true) State.reset = .next State.reset :=
  ⟨by decide, rfl, rfl⟩

/-- The second clause: a bare SEND at its last edge, and the ARB_ITERATE of V60 that waits for it and then shows 12.45 (R150). -/
theorem witness_ArbIterateWaits :
    { withButtons true true 0 (withClock 45 12) with phase := .latchHi, raw := true }.phase ≠ .idle ∧
    DwellCounts { withButtons true true 0 (withClock 45 12) with phase := .latchHi, raw := true } ∧
    (after (exec .arbIterate { withButtons true true 0 (withClock 45 12) with phase := .latchHi, raw := true })).map
      (fun t => (t.digits, t.out, t.busy, t.log.length)) = some (⟨1, 2, 4, 5⟩, 0x9208, false, 205) := by
  unfold DwellCounts
  decide +kernel

theorem witness_DecomposeWritesDigits : State.reset.phase = .idle := by rfl

theorem witness_DigitsRecomposeTheValue :
    State.reset.phase = .idle ∧ (∃ t, exec (.decompose 0 9999) State.reset = .next t) ∧ (9999 : Value).toNat ≤ 9999 :=
  ⟨rfl, ⟨_, rfl⟩, by decide⟩

theorem witness_RenderMakesOnePass : State.reset.phase = .idle ∧ State.reset.clock = false := by decide

theorem witness_RenderCommitsFourFrames : State.reset.phase = .idle ∧ State.reset.clock = false := by decide

theorem witness_PassLightsOnePoint :
    (State.reset.phase = .idle ∧ State.reset.clock = false) ∧ State.reset.digits = digitsOf 0 := by
  decide

theorem witness_RenderExpandsToFourSends :
    ∃ t u0 u1 u2 u3 u4, State.reset.phase = .idle ∧ exec (.render true 1 530) State.reset = .next t ∧
      exec (.decompose 0 530) State.reset = .next u0 ∧ exec (.send (passPattern true 1 530 0) 0x01) u0 = .next u1 ∧
      exec (.send (passPattern true 1 530 1) 0x02) u1 = .next u2 ∧
      exec (.send (passPattern true 1 530 2) 0x04) u2 = .next u3 ∧
      exec (.send (passPattern true 1 530 3) 0x08) u3 = .next u4 :=
  ⟨_, _, _, _, _, _, rfl, rfl, rfl, rfl, rfl, rfl, rfl⟩

/-- V55: after V30's pass segment a of the rightmost position is lit. -/
theorem witness_LastDigitStaysLit :
    State.reset.phase = .idle ∧ State.reset.clock = false ∧
    ∃ t, exec (.render true 1 530) State.reset = .next t ∧ lit t.out 3 0 = true := by
  refine ⟨rfl, rfl, _, rfl, ?_⟩
  rw [requestRender_eq true 1 530 rfl rfl]
  decide

theorem witness_IdleRowsAcceptRequests :
    State.reset.phase = .idle ∧ noRequest.rst = false ∧ { noRequest with start := true }.start = true ∧
    ({ noRequest with sndStart := true }.start = false ∧ { noRequest with sndStart := true }.sndStart = true) ∧
    (noRequest.start = false ∧ noRequest.sndStart = false) := by
  decide

theorem witness_FrameRowsWriteOnePin :
    noRequest.rst = false ∧
    ({ inPhase .latchLo with raw := true }.phase = .latchLo ∧ { inPhase .latchLo with raw := true }.raw = true) ∧
    ((inPhase .latchLo).phase = .latchLo ∧ (inPhase .latchLo).raw = false ∧
      (digitAt { inPhase .latchLo with digits := ⟨9, 0, 0, 0⟩ }.digits 0).toNat ≤ 9) ∧
    (inPhase .dataOut).phase = .dataOut ∧ (inPhase .clkHi).phase = .clkHi ∧
    ({ inPhase .clkLo with bitIdx := 1 }.phase = .clkLo ∧ { inPhase .clkLo with bitIdx := 1 }.bitIdx ≠ 0) ∧
    ((inPhase .clkLo).phase = .clkLo ∧ (inPhase .clkLo).bitIdx = 0) := by
  decide

theorem witness_DwellRowsEndTheSlot :
    noRequest.rst = false ∧
    ({ inPhase .latchHi with raw := true }.phase = .latchHi ∧ { inPhase .latchHi with raw := true }.raw = true) ∧
    ((inPhase .latchHi).phase = .latchHi ∧ (inPhase .latchHi).raw = false) ∧
    ({ inPhase .dwell with dwellCnt := 2 }.phase = .dwell ∧ { inPhase .dwell with dwellCnt := 2 }.dwellCnt ≠ 1) ∧
    ({ inPhase .dwell with dwellCnt := 1, digitIdx := 2 }.dwellCnt = 1 ∧
      { inPhase .dwell with dwellCnt := 1, digitIdx := 2 }.digitIdx ≠ 3) ∧
    ({ inPhase .dwell with dwellCnt := 1, digitIdx := 3 }.dwellCnt = 1 ∧
      { inPhase .dwell with dwellCnt := 1, digitIdx := 3 }.digitIdx = 3) := by
  decide

theorem witness_EdgesIgnorePortsWhileBusy :
    (inPhase .latchLo).busy = true ∧ { noRequest with start := true }.rst = false ∧ noRequest.rst = false := by
  decide

theorem witness_EncoderPortDisturbsNothing :
    { noRequest with encDigit := 9 }.encDigit.toNat ≤ 9 ∧
    (9 < { noRequest with encDigit := 10 }.encDigit.toNat ∧ { noRequest with encDigit := 10 }.rst = false ∧
      PassDigitsDecimal { inPhase .latchLo with digits := ⟨9, 9, 9, 9⟩ }) ∧
    (9 < { noRequest with encDigit := 15, rst := true }.encDigit.toNat ∧
      { noRequest with encDigit := 15, rst := true }.rst = true) := by
  unfold PassDigitsDecimal; decide

theorem witness_FiftyCyclesPerformTheSend :
    State.reset.phase = .idle ∧ { noRequest with sndStart := true }.rst = false ∧
    { noRequest with sndStart := true }.start = false ∧ { noRequest with sndStart := true }.sndStart = true ∧
    (List.replicate 50 noRequest).length = 50 ∧ NoReset (List.replicate 50 noRequest) ∧ 0 < 50 ∧ 49 < 50 :=
  ⟨rfl, rfl, rfl, rfl, rfl, fun p hp => by rw [List.eq_of_mem_replicate hp]; rfl, by decide, by decide⟩

theorem witness_CyclesPerformTheRender :
    State.reset.phase = .idle ∧ { noRequest with start := true }.rst = false ∧
    { noRequest with start := true }.start = true ∧
    (List.replicate (4 * (50 + Config.dwellCycles)) noRequest).length = 4 * (50 + Config.dwellCycles) ∧
    NoReset (List.replicate (4 * (50 + Config.dwellCycles)) noRequest) ∧ 0 < 4 * (50 + Config.dwellCycles) :=
  ⟨rfl, rfl, rfl, List.length_replicate, fun p hp => by rw [List.eq_of_mem_replicate hp]; rfl, by omega⟩

theorem witness_AdvanceCountsTheClock :
    ClockInRange (withClock 0 0) ∧ ClockInRange (withClock 59 0) ∧ ClockInRange (withClock 59 99) := by
  unfold ClockInRange; decide

theorem witness_TicksFromZeroHaveClosedForm : State.reset.seconds = 0 ∧ State.reset.minutes = 0 := by decide

theorem witness_IterationShowsTheTime :
    (withButtons true true 0 (withClock 30 5)).script = ⟨0, true, 0, true, 0, 0⟩ :: [] ∧
    DwellCounts (withButtons true true 0 (withClock 30 5)) ∧
    DwellCounts { withButtons true true 0 (withClock 30 5) with phase := .dwell, dwellCnt := 1 } := by
  unfold DwellCounts; decide

theorem witness_IterationShowsTheVoltage :
    (withButtons true false 0xFFFF State.reset).script = ⟨0, true, 0, false, 0xFFFF, 0⟩ :: [] ∧
    DwellCounts (withButtons true false 0xFFFF State.reset) := by
  unfold DwellCounts; decide

theorem witness_IterationResetsTheClock :
    (withButtons false true 0 (withClock 45 12)).script = ⟨0, false, 0, true, 0, 0⟩ :: [] ∧
    (withButtons false false 0 (withClock 45 12)).script = ⟨0, false, 0, false, 0, 0⟩ :: [] ∧
    DwellCounts (withButtons false true 0 (withClock 45 12)) := by
  unfold DwellCounts; decide

theorem witness_UnscriptedIterationMeetsTheOracles : PassDigitsDecimal State.reset ∧ State.reset.script = [] := by
  unfold PassDigitsDecimal; decide

theorem witness_TimeValueShowsMinutesAndSeconds : ClockInRange (withClock 59 99) ∧ ClockInRange (withClock 0 0) := by
  unfold ClockInRange; decide

theorem witness_OnlyTheTimekeeperChangesTheClock :
    Instr.dsel0 ≠ .tkAdvance ∧ Instr.dsel0 ≠ .tkReset ∧ Instr.dsel0 ≠ .arbIterate ∧
    exec .dsel0 State.reset = .next { State.reset with result := 0x01 } :=
  ⟨by decide, by decide, by decide, rfl⟩

theorem witness_StepKeepsClockInRange :
    ClockInRange { withClock 59 99 with schedule := [.op .tkAdvance 0] } ∧
    ∃ t, step { withClock 59 99 with schedule := [.op .tkAdvance 0] } = .next t :=
  ⟨by unfold ClockInRange; decide, _, rfl⟩

theorem witness_StepKeepsLineDiscipline :
    (LineDiscipline { inPhase .clkLo with clock := true } ∧
      ∃ t, step { inPhase .clkLo with clock := true } = .next t) ∧
    (LineDiscipline { inPhase .dwell with latch := true } ∧
      ∃ t, step { inPhase .dwell with latch := true } = .next t) :=
  ⟨⟨by unfold LineDiscipline; decide, _, rfl⟩, by unfold LineDiscipline; decide, _, rfl⟩

/-- The second clause: a frame with two pulses done and a third begun. -/
theorem witness_StepKeepsTraceFrames :
    TraceIsFrames { inPhase .clkLo with clock := true, bitIdx := 13, log := [l0, d1, c1, c0, d0, c1, c0, d1, c1] } ∧
    ∃ t, step { inPhase .clkLo with clock := true, bitIdx := 13, log := [l0, d1, c1, c0, d0, c1, c0, d1, c1] } =
      .next t :=
  ⟨rfl, _, rfl⟩

theorem witness_StepKeepsTraceExplanation :
    TraceExplainsLines { scheduled (.op .send 0xA404) with data := true, log := [d1] } ∧
    ∃ t, step { scheduled (.op .send 0xA404) with data := true, log := [d1] } = .next t :=
  ⟨⟨0, 0, rfl⟩, _, rfl⟩

theorem witness_StepKeepsPassRegisters :
    PassDigitsDecimal { inPhase .dwell with digits := ⟨9, 9, 9, 9⟩, dwellCnt := 1 } ∧
    DwellCounts { inPhase .dwell with digits := ⟨9, 9, 9, 9⟩, dwellCnt := 1 } ∧
    ∃ t, step { inPhase .dwell with digits := ⟨9, 9, 9, 9⟩, dwellCnt := 1 } = .next t :=
  ⟨by unfold PassDigitsDecimal; decide, by unfold DwellCounts; decide, _, rfl⟩

end Sys2Proof.Tests
end

namespace Sys2Proof.Machine

/-! The cycle level refines the event level (spec/00_scope.md R13): an accepted request starts the sequencer at LATCH_LO, the
edges from there perform the operation, the edges still needed say how long the block stays busy, and the encoder port in use
in any of the cycles changes its own fields alone. -/

open Sys2Proof.Safety

theorem noReset_take {ps : List Ports} (h : NoReset ps) (n : Nat) : NoReset (ps.take n) :=
  fun p hp => h p (List.mem_of_mem_take hp)

theorem noReset_drop {ps : List Ports} (h : NoReset ps) (n : Nat) : NoReset (ps.drop n) :=
  fun p hp => h p (List.mem_of_mem_drop hp)

theorem passDigitsDecimal_of_idle {s : State} (h : s.phase = .idle) : PassDigitsDecimal s :=
  fun hp => absurd h hp.1

theorem cyclesToGo_idle {s : State} (h : s.phase = .idle) : cyclesToGo s = 0 := by
  rw [cyclesToGo, h]

/-- The block stays busy while its operation needs more edges (R30, R131). -/
theorem edges_busy {ps : List Ports} (hr : NoReset ps) {s : State} (hd : DwellCounts s)
    (hl : ps.length < cyclesToGo s) : (edges ps s).busy = true := by
  have hp : s.phase ≠ .idle := fun h => by simp [cyclesToGo_idle h] at hl
  induction ps generalizing s with
  | nil => exact decide_eq_true hp
  | cons p ps ih =>
    obtain ⟨hp1, hps⟩ := noReset_cons.mp hr
    obtain ⟨hgo, hd'⟩ := clockEdge_cyclesToGo hp1 hp hd
    have hl' : ps.length < cyclesToGo (clockEdge p s) := by
      rw [List.length_cons] at hl
      omega
    exact ih hps hd' hl' fun h => by simp [cyclesToGo_idle h] at hl'

/-- From an idle block, cycles with the encoder port in use end as the edges alone do, but for the port's fields (R95). -/
theorem cycles_eq_of_edges {ps : List Ports} (hr : NoReset ps) {s t : State} (hp : s.phase = .idle)
    (h : edges ps s = t) :
    cycles ps s = { t with encPattern := (cycles ps s).encPattern, draws := (cycles ps s).draws } := by
  obtain ⟨e, n, he⟩ := cycles_edges hr (passDigitsDecimal_of_idle hp)
  rw [he, h]
  rfl

/-- The block is busy in each cycle after the acceptance while the operation needs more edges (R30, R131). -/
theorem cycles_busy {p : Ports} {ps : List Ports} (h : p.rst = false) (hr : NoReset ps) {s u : State}
    (hp : s.phase = .idle) (hacc : clockEdge p s = u) (hd : DwellCounts u) {n : Nat} (hn : n < cyclesToGo u) :
    (cycles (p :: ps.take n) s).busy = true := by
  have hrn := noReset_take hr n
  obtain ⟨e, k, he⟩ := cycles_edges (noReset_cons.mpr ⟨h, hrn⟩) (passDigitsDecimal_of_idle hp)
  rw [he, edges_cons, hacc]
  exact edges_busy hrn hd (Nat.lt_of_le_of_lt (List.length_take_le n ps) hn)

/-- The acceptance edge of a bare SEND (R107, R130). -/
theorem clockEdge_acceptSend {p : Ports} (h : p.rst = false) (hs : p.start = false) (hn : p.sndStart = true) {s : State}
    (hp : s.phase = .idle) :
    clockEdge p s = withControl .latchLo false (acceptSend p.sndSegments p.sndDigitSelect s) := by
  rw [clockEdge_run h, sequencerEdge, hp]
  simp only [idleEdge_send hs hn]
  rfl

/-- The sequencer about to begin the slot of digit index `i` of a pass (R127, R130). -/
def atSlot (i : Position) (z : State) : State := withControl .latchLo false { z with digitIdx := i }

/-- The acceptance edge of a RENDER (R127, R130). -/
theorem clockEdge_acceptRender {p : Ports} (h : p.rst = false) (hs : p.start = true) {s : State} (hp : s.phase = .idle) :
    clockEdge p s = atSlot 0 (acceptRender p.dpEn p.dpPos p.value s) := by
  rw [clockEdge_run h, sequencerEdge, hp]
  simp only [idleEdge_start hs]
  rfl

theorem dwellCounts_latchLo (dn : Bool) (s : State) : DwellCounts (withControl .latchLo dn s) :=
  fun h => Phase.noConfusion h

/-- A bare SEND needs 50 edges after its acceptance (R106, R131). -/
theorem cyclesToGo_acceptSend (seg sel : Byte) (s : State) :
    cyclesToGo (withControl .latchLo false (acceptSend seg sel s)) = 50 := rfl

/-- A RENDER needs four slots of edges after its acceptance (R131). -/
theorem cyclesToGo_acceptRender (en : Bool) (pos : Position) (v : Value) (s : State) :
    cyclesToGo (atSlot 0 (acceptRender en pos v s)) = 4 * (50 + Config.dwellCycles) := by
  have h : cyclesToGo (atSlot 0 (acceptRender en pos v s)) =
      50 + (Config.dwellCycles + 3 * (50 + Config.dwellCycles)) := rfl
  omega

/-- The edges of a bare SEND from LATCH_LO on perform the SEND of its frame (R104, R106). -/
theorem edges_send {ps : List Ports} (hl : ps.length = 50) (hr : NoReset ps) {s : State} (hraw : s.raw = true) :
    edges ps (withControl .latchLo false s) = withControl .idle true (sendFrame s) := by
  have hraw' : (withControl .latchLo false s).raw = true := hraw
  rw [edges_fifty hl hr _ (withControl .latchLo false s) rfl rfl (if_pos hraw').symm, if_pos hraw',
    sendFrame_withControl, withControl_withControl]

/-- The edges of a slot that is not the last perform it and leave the sequencer at the next (R124, R130). -/
theorem edges_nextSlot {i j : Position} (hi : i ≠ 3) (hj : i + 1 = j) {ps : List Ports}
    (hl : 50 + Config.dwellCycles ≤ ps.length) (hr : NoReset ps) {z : State} (hraw : z.raw = false) :
    edges ps (atSlot i z) = edges (ps.drop (50 + Config.dwellCycles)) (atSlot j (runSlot i z)) := by
  have hlen : (ps.take (50 + Config.dwellCycles)).length = 50 + Config.dwellCycles := List.length_take_of_le hl
  conv => lhs; rw [← List.take_append_drop (50 + Config.dwellCycles) ps]
  rw [edges_append, atSlot, edges_slot hlen (noReset_take hr _) hraw i, if_neg hi, hj]
  rfl

/-- The edges of the last slot perform it and end the pass (R124, R130). -/
theorem edges_lastSlot {ps : List Ports} (hl : ps.length = 50 + Config.dwellCycles) (hr : NoReset ps) {z : State}
    (hraw : z.raw = false) : edges ps (atSlot 3 z) = withControl .idle true (runSlot 3 z) := by
  rw [atSlot, edges_slot hl hr hraw, if_pos rfl]

/-- The edges of a RENDER from its first LATCH_LO on perform the pass (R123, R131). -/
theorem edges_pass {ps : List Ports} (hl : ps.length = 4 * (50 + Config.dwellCycles)) (hr : NoReset ps) {z : State}
    (hraw : z.raw = false) : edges ps (atSlot 0 z) = withControl .idle true (runPass z) := by
  have hraw0 : (runSlot 0 z).raw = false := (runSlot_raw 0 z).trans hraw
  have hraw1 : (runSlot 1 (runSlot 0 z)).raw = false := (runSlot_raw 1 _).trans hraw0
  have hraw2 : (runSlot 2 (runSlot 1 (runSlot 0 z))).raw = false := (runSlot_raw 2 _).trans hraw1
  have hr1 := noReset_drop hr (50 + Config.dwellCycles)
  have hr2 := noReset_drop hr1 (50 + Config.dwellCycles)
  have hr3 := noReset_drop hr2 (50 + Config.dwellCycles)
  rw [edges_nextSlot (j := 1) (by decide) rfl (by omega) hr hraw,
    edges_nextSlot (j := 2) (by decide) rfl (by simp only [List.length_drop]; omega) hr1 hraw0,
    edges_nextSlot (j := 3) (by decide) rfl (by simp only [List.length_drop]; omega) hr2 hraw1,
    edges_lastSlot (by simp only [List.length_drop]; omega) hr3 hraw2]
  rfl

theorem runPass_phase (s : State) : (runPass s).phase = s.phase := by
  simp only [runPass, runSlot_phase]

/-- The acceptance of a bare SEND and the 50 edges after it are the event-level request (R107). -/
theorem edges_requestSend {p : Ports} {ps : List Ports} (h : p.rst = false) (hs : p.start = false)
    (hn : p.sndStart = true) (hl : ps.length = 50) (hr : NoReset ps) {s : State} (hp : s.phase = .idle) :
    edges (p :: ps) s = requestSend p.sndSegments p.sndDigitSelect s := by
  have hph : (sendFrame (acceptSend p.sndSegments p.sndDigitSelect s)).phase = .idle := (sendFrame_phase _).trans hp
  rw [edges_cons, clockEdge_acceptSend h hs hn hp, edges_send hl hr rfl, withControl_idle hph, requestSend_idle _ _ hp]

/-- The acceptance of a RENDER and the four slots of edges after it are the event-level request (R127). -/
theorem edges_requestRender {p : Ports} {ps : List Ports} (h : p.rst = false) (hs : p.start = true)
    (hl : ps.length = 4 * (50 + Config.dwellCycles)) (hr : NoReset ps) {s : State} (hp : s.phase = .idle) :
    edges (p :: ps) s = requestRender p.dpEn p.dpPos p.value s := by
  have hph : (runPass (acceptRender p.dpEn p.dpPos p.value s)).phase = .idle := (runPass_phase _).trans hp
  rw [edges_cons, clockEdge_acceptRender h hs hp, edges_pass hl hr rfl, withControl_idle hph, requestRender_idle _ _ _ hp]

/-- Settles O43: the edges perform the request, and the encoder port changes its own fields alone. -/
theorem fiftyCyclesPerformTheSend : Obligations.FiftyCyclesPerformTheSend := by
  unfold Obligations.FiftyCyclesPerformTheSend
  intro s p ps hp hrst hs hn hl hr
  refine ⟨⟨_, rfl, ?_⟩, fun n hlt => ?_⟩
  · exact cycles_eq_of_edges (noReset_cons.mpr ⟨hrst, hr⟩) hp (edges_requestSend hrst hs hn hl hr hp)
  · exact cycles_busy hrst hr hp (clockEdge_acceptSend hrst hs hn hp) (dwellCounts_latchLo _ _)
      (by rwa [cyclesToGo_acceptSend])

/-- Settles O44: as for a SEND, with one frame and one dwell of edges for each of the four slots. -/
theorem cyclesPerformTheRender : Obligations.CyclesPerformTheRender := by
  unfold Obligations.CyclesPerformTheRender
  intro s p ps hp hrst hs hl hr
  refine ⟨⟨_, rfl, ?_⟩, fun n hlt => ?_⟩
  · exact cycles_eq_of_edges (noReset_cons.mpr ⟨hrst, hr⟩) hp (edges_requestRender hrst hs hl hr hp)
  · exact cycles_busy hrst hr hp (clockEdge_acceptRender hrst hs hp) (dwellCounts_latchLo _ _)
      (by rwa [cyclesToGo_acceptRender])

end Sys2Proof.Machine

namespace Sys2Proof.Machine

/-! What a step keeps, said once. The event level adds little to the edges: a SEND, a RENDER, a SHIFT_BIT, a SHIFT_BYTE and the
wait of ARB_ITERATE are runs of edges (spec/00_scope.md R13), so what every edge and the few other shared updates keep, every
step keeps. The invariants of spec/10_state.md follow from that. -/

open Sys2Proof.Safety

/-- The encoder port's output and the model's own fields set (logs 3, 6, 10, 23). -/
def withOwn (e r : Byte) (n : Nat) (l : List ArbInputs) (as : List Action) (s : State) : State :=
  { s with encPattern := e, result := r, draws := n, script := l, schedule := as }

/-- `P` is kept by all that happens to the block: its edges, a DECOMPOSE, and an answer of the encoder or the tables. -/
structure BlockInvariant (P : State → Prop) : Prop where
  edge : ∀ (p : Ports) (s : State), P s → P (clockEdge p s)
  decompose : ∀ (v : Value) (s : State), s.phase = .idle → P s → P (decomposeValue v s)
  own : ∀ (e r : Byte) (n : Nat) (l : List ArbInputs) (as : List Action) (s : State), P s → P (withOwn e r n l as s)

/-- `P` is kept by the timekeeper and the waits of the environment as well. -/
structure StepInvariant (P : State → Prop) : Prop extends BlockInvariant P where
  advance : ∀ s : State, P s → P (advanceClock s)
  clear : ∀ s : State, P s → P (clearClock s)
  wait : ∀ (ms : Nat) (s : State), P s → P (waitMs ms s)

/-- The ports of a cycle that asks for a SEND (R107). -/
def sendPorts (seg sel : Byte) : Ports :=
  { noRequest with sndStart := true, sndSegments := seg, sndDigitSelect := sel }

/-- The ports of a cycle that asks for a RENDER (R127). -/
def renderPorts (en : Bool) (pos : Position) (v : Value) : Ports :=
  { noRequest with start := true, value := v, dpEn := en, dpPos := pos }

/-- A SEND request is the edges that accept and perform it, or nothing (R107, R128). -/
theorem requestSend_edges (seg sel : Byte) (s : State) : ∃ ps, requestSend seg sel s = edges ps s := by
  by_cases hp : s.phase = .idle
  · exact ⟨sendPorts seg sel :: List.replicate 50 noRequest,
      (edges_requestSend (p := sendPorts seg sel) rfl rfl rfl List.length_replicate (noReset_replicate _) hp).symm⟩
  · exact ⟨[], requestSend_busy seg sel hp⟩

/-- A RENDER request is the edges that accept and perform it, or nothing (R127, R128). -/
theorem requestRender_edges (en : Bool) (pos : Position) (v : Value) (s : State) :
    ∃ ps, requestRender en pos v s = edges ps s := by
  by_cases hp : s.phase = .idle
  · exact ⟨renderPorts en pos v :: List.replicate (4 * (50 + Config.dwellCycles)) noRequest,
      (edges_requestRender (p := renderPorts en pos v) rfl rfl List.length_replicate (noReset_replicate _) hp).symm⟩
  · exact ⟨[], requestRender_busy en pos v hp⟩

section
variable {P : State → Prop} {s t : State}

theorem BlockInvariant.cycle_keeps (h : BlockInvariant P) (p : Ports) (hs : P s) : P (cycle p s) :=
  h.edge p _ (h.own _ _ _ _ _ _ hs)

theorem BlockInvariant.requestRender_keeps (h : BlockInvariant P) (en : Bool) (pos : Position) (v : Value) (hs : P s) :
    P (requestRender en pos v s) := by
  obtain ⟨ps, he⟩ := requestRender_edges en pos v s
  rw [he]
  exact edges_induct h.edge ps hs

/-- What the block keeps, every operation but the timekeeper's and the arbiter's keeps. -/
theorem BlockInvariant.exec_keeps (h : BlockInvariant P) {i : Instr} (hadv : i ≠ .tkAdvance) (hclr : i ≠ .tkReset)
    (harb : i ≠ .arbIterate) (hx : exec i s = .next t) (hs : P s) : P t := by
  cases i with
  | tkAdvance => exact absurd rfl hadv
  | tkReset => exact absurd rfl hclr
  | arbIterate => exact absurd rfl harb
  | shiftBit b =>
    obtain rfl := Host.Outcome.next.inj ((execShiftBit_edges b s).symm.trans hx)
    exact edges_induct h.edge _ hs
  | shiftByte w =>
    obtain rfl := Host.Outcome.next.inj ((execShiftByte_edges w s).symm.trans hx)
    exact edges_induct h.edge _ hs
  | send seg sel =>
    obtain ⟨ps, he⟩ := requestSend_edges seg sel s
    obtain rfl := Host.Outcome.next.inj hx
    rw [he]
    exact edges_induct h.edge ps hs
  | decompose x v =>
    obtain rfl := Host.Outcome.next.inj hx
    exact whenIdle_induct (fun _ => hs) fun hp => h.decompose v s hp hs
  | render en pos v =>
    obtain rfl := Host.Outcome.next.inj hx
    exact h.requestRender_keeps en pos v hs
  | encode | applyDp | encodeDp | seg0 | seg1 | seg2 | seg3 | seg4 | seg5 | seg6 | seg7 | seg8 | seg9
  | dsel0 | dsel1 | dsel2 | dsel3 =>
    obtain rfl := Host.Outcome.next.inj hx
    exact h.own _ _ _ _ _ s hs

theorem StepInvariant.runTicks_keeps (h : StepInvariant P) (n : Nat) (hs : P s) : P (runTicks n s) := by
  induction n generalizing s with
  | zero => exact hs
  | succ n ih => exact ih (h.advance s hs)

theorem StepInvariant.resetStep_keeps (h : StepInvariant P) (button : Bool) (hs : P s) : P (resetStep button s) := by
  cases button
  · exact h.wait _ _ (h.clear s hs)
  · exact hs

theorem BlockInvariant.takeInputs_keeps (h : BlockInvariant P) (hs : P s) : P (takeInputs s) := by
  unfold takeInputs
  split
  · exact h.own _ _ _ _ _ _ hs
  · exact h.own _ _ _ _ _ _ hs

theorem StepInvariant.iterateWith_keeps (h : StepInvariant P) (inp : ArbInputs) (hs : P s) : P (iterateWith inp s) :=
  h.runTicks_keeps _ (h.requestRender_keeps _ _ _
    (h.runTicks_keeps _ (h.resetStep_keeps _ (h.runTicks_keeps _ hs))))

theorem StepInvariant.exec_keeps (h : StepInvariant P) {i : Instr} (hx : exec i s = .next t) (hs : P s) : P t := by
  by_cases hadv : i = .tkAdvance
  · subst hadv
    obtain rfl := Host.Outcome.next.inj hx
    exact h.advance s hs
  by_cases hclr : i = .tkReset
  · subst hclr
    obtain rfl := Host.Outcome.next.inj hx
    exact h.clear s hs
  by_cases harb : i = .arbIterate
  · subst harb
    obtain rfl := Host.Outcome.next.inj hx
    exact h.iterateWith_keeps _ (h.takeInputs_keeps (awaitIdle_induct h.edge hs))
  exact h.toBlockInvariant.exec_keeps hadv hclr harb hx hs

/-- What the block and its environment keep, every step keeps. -/
theorem StepInvariant.step_keeps (h : StepInvariant P) (hs : P s) (hx : step s = .next t) : P t := by
  have htake : ∀ rest, P { s with schedule := rest } := fun rest => h.own _ _ _ _ _ _ hs
  obtain ⟨-, -, he⟩ | ⟨-, -, rfl⟩ | ⟨p, rest, -, rfl⟩ | ⟨_, _, rest, _, -, -, he⟩ := step_next hx
  · exact h.exec_keeps he hs
  · exact h.edge _ _ hs
  · exact h.cycle_keeps p (htake rest)
  · exact h.exec_keeps he (htake rest)

end

/-! ### ClockState (R40, R141) -/

theorem advanceClock_seconds (s : State) :
    (advanceClock s).seconds = if s.seconds + 1 = 60 then 0 else s.seconds + 1 := by
  simp [advanceClock, Config.secMod]

theorem advanceClock_minutes (s : State) :
    (advanceClock s).minutes =
      if s.seconds + 1 = 60 then (if s.minutes + 1 = 100 then 0 else s.minutes + 1)
      else if s.minutes = 100 then 0 else s.minutes := by
  by_cases h : s.seconds + 1 = 60
  · simp [advanceClock, Config.secMod, Config.minMod, h]
  · simp [advanceClock, Config.secMod, Config.minMod, h]

/-- A tick wraps the seconds at 60 and the minutes at 100 (R141). -/
theorem advanceClock_inRange {s : State} (hs : ClockInRange s) : ClockInRange (advanceClock s) := by
  obtain ⟨hsec, hmin⟩ := hs
  rw [ClockInRange, advanceClock_seconds, advanceClock_minutes]
  split_ifs <;> omega

theorem clockInRange_stepInvariant : StepInvariant ClockInRange where
  edge p s hs := by
    obtain ⟨hsec, hmin, -⟩ := clockEdge_environment p s
    rw [ClockInRange, hsec, hmin]
    exact hs
  decompose _ _ _ hs := hs
  own _ _ _ _ _ _ hs := hs
  advance _ hs := advanceClock_inRange hs
  clear _ _ := by simp [ClockInRange]
  wait _ _ hs := hs

/-- Settles O55: only the tick and the clock reset touch ClockState, and both end in range. -/
theorem stepKeepsClockInRange : Obligations.StepKeepsClockInRange := by
  unfold Obligations.StepKeepsClockInRange
  intro s t hs hx
  exact clockInRange_stepInvariant.step_keeps hs hx

/-- ClockState reads so many seconds and minutes (R40). -/
def ClockReads (sec mins : Nat) (s : State) : Prop := s.seconds = sec ∧ s.minutes = mins

/-- The block leaves ClockState at whatever it reads (R165, R174). -/
theorem clockReads_blockInvariant (sec mins : Nat) : BlockInvariant (ClockReads sec mins) where
  edge p s hs := by
    obtain ⟨hsec, hmin, -⟩ := clockEdge_environment p s
    rw [ClockReads, hsec, hmin]
    exact hs
  decompose _ _ _ hs := hs
  own _ _ _ _ _ _ hs := hs

/-- Settles O54: the clock's two values are an invariant of the block. -/
theorem onlyTheTimekeeperChangesTheClock : Obligations.OnlyTheTimekeeperChangesTheClock := by
  unfold Obligations.OnlyTheTimekeeperChangesTheClock
  refine ⟨fun i s t hadv hclr harb hx => ?_, fun p s => ?_⟩
  · exact (clockReads_blockInvariant s.seconds s.minutes).exec_keeps hadv hclr harb hx ⟨rfl, rfl⟩
  · exact (clockReads_blockInvariant s.seconds s.minutes).cycle_keeps p ⟨rfl, rfl⟩

/-! ### The trace (R39, R62, R109, R110) -/

/-- A trace that explains the lines still does with the events that account for what became of them (R62). -/
theorem traceExplainsLines_of_accounts {s t : State} (hs : TraceExplainsLines s) (h : LogAccounts s t) :
    TraceExplainsLines t := by
  obtain ⟨sr, out, hr⟩ := hs
  obtain ⟨es, hlog, hw⟩ := h
  exact ⟨sr, out, by rw [hlog, replay_append, hr, hw]⟩

/-- After `rst` the trace is empty, the lines are at their reset levels, and the receiver keeps what it held (R43, R45). -/
theorem resetBlock_traceExplainsLines (s : State) : TraceExplainsLines (resetBlock s) := ⟨s.sr, s.out, rfl⟩

theorem idleEdge_logAccounts (p : Ports) (s : State) : LogAccounts s (idleEdge p s) := by
  unfold idleEdge
  split
  · exact .of_same rfl rfl
  · split
    · exact .of_same rfl rfl
    · exact .of_same rfl rfl

theorem latchLoEdge_logAccounts (s : State) : LogAccounts s (latchLoEdge s) := by
  cases hr : s.raw
  · rw [latchLoEdge_slot hr]
    have hload : LogAccounts s (loadSlot s) := .of_same rfl rfl
    exact (hload.trans (pinWrite_logAccounts .latch false _)).trans (.of_same rfl rfl)
  · rw [latchLoEdge_raw hr]
    exact (pinWrite_logAccounts .latch false s).trans (.of_same rfl rfl)

theorem clkLoEdge_logAccounts (s : State) : LogAccounts s (clkLoEdge s) := by
  unfold clkLoEdge
  split <;> exact (pinWrite_logAccounts .clock false s).trans (.of_same rfl rfl)

theorem latchHiEdge_logAccounts (s : State) : LogAccounts s (latchHiEdge s) := by
  unfold latchHiEdge
  split <;> exact (pinWrite_logAccounts .latch true s).trans (.of_same rfl rfl)

theorem dwellEdge_logAccounts (s : State) : LogAccounts s (dwellEdge s) := by
  unfold dwellEdge
  split
  · exact .of_same rfl rfl
  · split <;> exact (waitMs_logAccounts Config.tDwellMs s).trans (.of_same rfl rfl)

/-- Every row of R130 logs what it does to the lines. -/
theorem sequencerEdge_logAccounts (p : Ports) (s : State) : LogAccounts s (sequencerEdge p s) := by
  unfold sequencerEdge
  cases s.phase with
  | idle => exact idleEdge_logAccounts p s
  | latchLo => exact latchLoEdge_logAccounts s
  | dataOut => exact (pinWrite_logAccounts .data _ s).trans (.of_same rfl rfl)
  | clkHi => exact (pinWrite_logAccounts .clock true s).trans (.of_same rfl rfl)
  | clkLo => exact clkLoEdge_logAccounts s
  | latchHi => exact latchHiEdge_logAccounts s
  | dwell => exact dwellEdge_logAccounts s

theorem clockEdge_traceExplainsLines (p : Ports) {s : State} (hs : TraceExplainsLines s) :
    TraceExplainsLines (clockEdge p s) := by
  cases hr : p.rst
  · rw [clockEdge_run hr]
    exact traceExplainsLines_of_accounts hs ((sequencerEdge_logAccounts p s).trans (.of_same rfl rfl))
  · rw [clockEdge_rst hr]
    exact resetBlock_traceExplainsLines s

theorem traceExplainsLines_stepInvariant : StepInvariant TraceExplainsLines where
  edge p _ hs := clockEdge_traceExplainsLines p hs
  decompose _ _ _ hs := hs
  own _ _ _ _ _ _ hs := hs
  advance _ hs := hs
  clear _ hs := hs
  wait ms s hs := traceExplainsLines_of_accounts hs (waitMs_logAccounts ms s)

/-- Settles O57: each row of the sequencer logs what it does to the lines, and `rst` starts lines and log afresh together. -/
theorem stepKeepsTraceExplanation : Obligations.StepKeepsTraceExplanation := by
  unfold Obligations.StepKeepsTraceExplanation
  intro s t hs hx
  exact traceExplainsLines_stepInvariant.step_keeps hs hx

/-! ### The registers of a pass (R25, R121, R130, R134) -/

theorem dwellCounts_of_phase {s : State} (h : s.phase ≠ .dwell) : DwellCounts s := fun hd => absurd hd h

/-- An edge takes an idle block to LATCH_LO or leaves it idle (R130). -/
theorem idleEdge_phase (p : Ports) {s : State} (hp : s.phase = .idle) : (idleEdge p s).phase ≠ .dwell := by
  unfold idleEdge
  split
  · exact Phase.noConfusion
  · split
    · exact Phase.noConfusion
    · simp [hp]

theorem clockEdge_dwellCounts (p : Ports) {s : State} (hd : DwellCounts s) : DwellCounts (clockEdge p s) := by
  cases hr : p.rst
  · by_cases hp : s.phase = .idle
    · apply dwellCounts_of_phase
      rw [clockEdge_run hr, sequencerEdge, hp]
      exact idleEdge_phase p hp
    · exact (clockEdge_cyclesToGo hr hp hd).2
  · rw [clockEdge_rst hr]
    exact dwellCounts_of_phase (by simp)

theorem clockEdge_passDigitsDecimal (p : Ports) {s : State} (hd : PassDigitsDecimal s) :
    PassDigitsDecimal (clockEdge p s) := by
  cases hr : p.rst
  · exact clockEdge_passDigits hr hd
  · rw [clockEdge_rst hr]
    exact passDigitsDecimal_of_idle rfl

theorem passDigitsDecimal_stepInvariant : StepInvariant PassDigitsDecimal where
  edge p _ hs := clockEdge_passDigitsDecimal p hs
  decompose _ _ hp _ := passDigitsDecimal_of_idle hp
  own _ _ _ _ _ _ hs := hs
  advance _ hs := hs
  clear _ hs := hs
  wait _ _ hs := hs

theorem dwellCounts_stepInvariant : StepInvariant DwellCounts where
  edge p _ hs := clockEdge_dwellCounts p hs
  decompose _ _ _ hs := hs
  own _ _ _ _ _ _ hs := hs
  advance _ hs := hs
  clear _ hs := hs
  wait _ _ hs := hs

/-- Settles O58: the digits are decomposed where a pass begins, and a dwell is entered with DWELL_CYCLES and left at 1. -/
theorem stepKeepsPassRegisters : Obligations.StepKeepsPassRegisters := by
  unfold Obligations.StepKeepsPassRegisters
  intro s t hdig hdwell hx
  exact ⟨passDigitsDecimal_stepInvariant.step_keeps hdig hx, dwellCounts_stepInvariant.step_keeps hdwell hx⟩

/-! ### What stays lit after a pass (R38, R111) -/

theorem oneHot_getLsbD (i k : Position) : (oneHot i).getLsbD k.toNat = decide (k = i) := by
  revert i k; decide

/-- A pass frame on the outputs lights its own position alone, the segments whose pattern bit is 0 (R111, R122). -/
theorem lit_passFrame (en : Bool) (pos : Position) (v : Value) (i k : Position) (j : BitVec 3) :
    lit (passFrame en pos v i) k j = (decide (k = i) && !(passPattern en pos v i).getLsbD j.toNat) := by
  have hk : k.toNat < 8 := Nat.lt_trans k.isLt (by decide)
  rw [lit, passFrame, frame_getLsbD, frame_getLsbD, if_pos hk, if_neg (by omega), Nat.add_sub_cancel_left,
    oneHot_getLsbD]

/-- Below the point a pass pattern is the complement of the common-cathode pattern (R92, R122). -/
theorem passPattern_getLsbD (en : Bool) (pos : Position) (v : Value) (i : Position) {j : Nat} (hj : j < 7) :
    (passPattern en pos v i).getLsbD j = !(Config.segCC.getD (digitAt (digitsOf v) i).toNat 0).getLsbD j := by
  have hmask : (0x7F : Byte).getLsbD j = true := by
    interval_cases j <;> rfl
  have hj8 : j < 8 := by omega
  unfold passPattern
  split
  · rw [BitVec.getLsbD_and, hmask, BitVec.getLsbD_not]
    simp [hj8]
  · rw [BitVec.getLsbD_not]
    simp [hj8]

/-- Every decimal digit has a segment a to g (R92, log 5). -/
theorem segCC_shows_segment : ∀ d : Digit, d.toNat ≤ 9 →
    ∃ j : BitVec 3, j.toNat < 7 ∧ (Config.segCC.getD d.toNat 0).getLsbD j.toNat = true := by
  decide

/-- Settles O35: the output stage holds the frame of position 3, whose digit has a segment. -/
theorem lastDigitStaysLit : Obligations.LastDigitStaysLit := by
  unfold Obligations.LastDigitStaysLit
  intro s t en pos v hp hc hx
  have hout : t.out = passFrame en pos v 3 := by
    obtain rfl := Host.Outcome.next.inj hx
    rw [requestRender_eq en pos v hp hc]
  rw [hout]
  refine ⟨?_, fun k j hl => ?_⟩
  · obtain ⟨j, hj, hseg⟩ := segCC_shows_segment _ (digitAt_digitsOf_le v 3)
    refine ⟨j, fun h7 => by simp [h7] at hj, ?_⟩
    rw [lit_passFrame, passPattern_getLsbD en pos v 3 hj, hseg]
    rfl
  · rw [lit_passFrame, Bool.and_eq_true, decide_eq_true_iff] at hl
    exact hl.1

/-! ### Reset and the status outputs (R30, R31, R43, R180) -/

/-- Settles O10: each value is read off the reset state. -/
theorem resetStateHasStatedValues : Obligations.ResetStateHasStatedValues := by
  unfold Obligations.ResetStateHasStatedValues
  decide

/-- Settles O11: an edge with `rst` is `resetBlock`, whatever the phase. -/
theorem rstAbandonsEverything : Obligations.RstAbandonsEverything := by
  unfold Obligations.RstAbandonsEverything
  intro p s hr
  rw [clockEdge_rst hr]
  simp [State.busy, State.trace, resetBlock, drawOperandRegisters]

/-- Settles O40: an edge without `rst` sets `done` from the phases around it, and `rst` clears it. -/
theorem donePulsesWhenAnOperationEnds : Obligations.DonePulsesWhenAnOperationEnds := by
  unfold Obligations.DonePulsesWhenAnOperationEnds
  intro p s
  cases hr : p.rst
  · rw [clockEdge_run hr]
    simp [doneAfter, State.busy]
  · rw [clockEdge_rst hr]
    simp

/-- Settles O59: the lines rest at 0 with an empty log, and no pass or dwell is under way. -/
theorem resetMeetsTheInvariants : Obligations.ResetMeetsTheInvariants := by
  unfold Obligations.ResetMeetsTheInvariants
  refine ⟨⟨by decide, by decide⟩, ?_, rfl, ⟨0, 0, rfl⟩, passDigitsDecimal_of_idle rfl, dwellCounts_of_phase (by decide)⟩
  unfold LineDiscipline
  decide

/-! ### The oracles (R42, log 10) -/

/-- The wait for an idle block leaves the encoder port's fields alone while a pass's digits are decimal (R128). -/
theorem awaitIdle_port {s : State} (hd : PassDigitsDecimal s) :
    (awaitIdle s).encPattern = s.encPattern ∧ (awaitIdle s).draws = s.draws := by
  have h : awaitIdle s = withPort s.encPattern s.draws (awaitIdle s) :=
    awaitIdleFor_withPort (cyclesToGo s) hd s.encPattern s.draws
  rw [h]
  exact ⟨rfl, rfl⟩

/-- The wait does not see the scripted inputs or the draws (R128, R140). -/
theorem awaitIdle_withScript_withPort {s : State} (hd : PassDigitsDecimal s) (l : List ArbInputs) (e : Byte) (n : Nat) :
    awaitIdle (withScript l (withPort e n s)) = withScript l (withPort e n (awaitIdle s)) := by
  have hgo : cyclesToGo (withScript l (withPort e n s)) = cyclesToGo s := rfl
  rw [awaitIdle, hgo, awaitIdleFor_withScript, awaitIdleFor_withPort _ hd]
  rfl

theorem nextInputs_unscripted {s : State} (h : s.script = []) : nextInputs s = oracleInputs s.draws := by
  rw [nextInputs, h]

/-- Taking oracle inputs leaves the state that scripting one entry and taking that would, the draw counted (log 10). -/
theorem takeInputs_unscripted {s : State} (h : s.script = []) (inp : ArbInputs) :
    takeInputs s = takeInputs (withScript [inp] (withPort s.encPattern (s.draws + 1) s)) := by
  rw [takeInputs, h]
  rfl

/-- Settles O51: the wait neither draws nor reads the script, so both iterations take the same inputs and go on alike. -/
theorem unscriptedIterationMeetsTheOracles : Obligations.UnscriptedIterationMeetsTheOracles := by
  unfold Obligations.UnscriptedIterationMeetsTheOracles
  intro s hd hs
  have hscr : (awaitIdle s).script = [] := by
    obtain ⟨-, -, h, -⟩ := awaitIdle_environment s
    exact h.trans hs
  obtain ⟨henc, hdraws⟩ := awaitIdle_port hd
  have hwait := awaitIdle_withScript_withPort hd [oracleInputs s.draws] s.encPattern (s.draws + 1)
  calc exec .arbIterate s
      = .next (iterateWith (nextInputs (awaitIdle s)) (takeInputs (awaitIdle s))) := rfl
    _ = .next (iterateWith (oracleInputs s.draws)
          (takeInputs (withScript [oracleInputs s.draws] (withPort s.encPattern (s.draws + 1) (awaitIdle s))))) := by
        rw [nextInputs_unscripted hscr, takeInputs_unscripted hscr, henc, hdraws]
    _ = exec .arbIterate (withScript [oracleInputs s.draws] (withPort s.encPattern (s.draws + 1) s)) := by
        rw [exec, execArbIterate, hwait]
        rfl

end Sys2Proof.Machine

namespace Sys2Proof.Machine

/-! The select masks as data rows (spec/20_memory.md R51), what the receiver shows in the course of a SEND (R59), what a RENDER
sees of its value (R57), and what is left of a request that meets a busy block (R56, R63, R64). -/

open Sys2Proof.Safety

/-- Settles O18: each row reads its own entry of the table. -/
theorem selectRowsAnswerTheirMask : Obligations.SelectRowsAnswerTheirMask := by
  unfold Obligations.SelectRowsAnswerTheirMask
  intro s
  exact ⟨rfl, rfl, rfl, rfl⟩

/-! ### The outputs in the course of a SEND (R59, R110, R112) -/

/-- The output stage takes the shift stage in only when `latch` is written to 1 (R110). -/
theorem observe_out {e : Event} (he : e ≠ .pin .latch true) (w : Wires) : (observe w e).out = w.out := by
  match e with
  | .pin .data _ | .pin .clock _ | .pin .latch false | .wait _ => simp [observe]
  | .pin .latch true => exact absurd rfl he

/-- Events that never write `latch` to 1 leave the outputs as they were (R110). -/
theorem replay_out {es : List Event} (h : .pin .latch true ∉ es) (w : Wires) : (replay w es).out = w.out := by
  induction es generalizing w with
  | nil => rfl
  | cons e es ih =>
    rw [List.mem_cons, not_or] at h
    obtain ⟨he, hes⟩ := h
    exact (ih hes (observe w e)).trans (observe_out (Ne.symm he) w)

theorem latch_notMem_bitsEvents (f : Nat → Bool) (n : Nat) (b : Bool) : .pin .latch b ∉ bitsEvents f n := by
  induction n with
  | zero => exact List.not_mem_nil
  | succ n ih => simp [bitsEvents, bitEvents, ih]

theorem bitsEvents_length (f : Nat → Bool) (n : Nat) : (bitsEvents f n).length = 3 * n := by
  induction n with
  | zero => rfl
  | succ n ih =>
    rw [bitsEvents, List.length_append, ih]
    simp [bitEvents]
    omega

/-- The events of a SEND before its last: `latch` to 0 and the sixteen bits (R104). -/
def sendEventsInit (seg sel : Byte) : List Event :=
  .pin .latch false :: bitsEvents (seg ++ sel : Frame).getLsbD 16

theorem sendEvents_eq_init (seg sel : Byte) : sendEvents seg sel = sendEventsInit seg sel ++ [.pin .latch true] :=
  sendEvents_bits seg sel

theorem sendEventsInit_length (seg sel : Byte) : (sendEventsInit seg sel).length = 49 := by
  rw [sendEventsInit, List.length_cons, bitsEvents_length]

theorem sendEvents_length (seg sel : Byte) : (sendEvents seg sel).length = 50 := by
  rw [sendEvents_eq_init, List.length_append, sendEventsInit_length]
  rfl

theorem latchRise_notMem_sendEventsInit (seg sel : Byte) : .pin .latch true ∉ sendEventsInit seg sel := by
  simp [sendEventsInit, latch_notMem_bitsEvents]

/-- Before the last event of a SEND the outputs are what they were (R59). -/
theorem replay_take_sendEvents_out (w : Wires) (seg sel : Byte) {n : Nat} (hn : n < 50) :
    (replay w ((sendEvents seg sel).take n)).out = w.out := by
  have hlen : n ≤ (sendEventsInit seg sel).length := by
    rw [sendEventsInit_length]
    omega
  rw [sendEvents_eq_init, List.take_append_of_le_length hlen]
  exact replay_out (fun hm => latchRise_notMem_sendEventsInit seg sel (List.mem_of_mem_take hm)) w

/-- With the clock at rest the events of a SEND end with its frame on the outputs (R112). -/
theorem replay_sendEvents_out {w : Wires} (hc : w.clock = false) (seg sel : Byte) :
    (replay w (sendEvents seg sel)).out = seg ++ sel := by
  have hlow : replay w (sendEvents seg sel) =
      replay (observe w (.pin .latch false)) (bitsEvents (seg ++ sel : Frame).getLsbD 16 ++ [.pin .latch true]) := by
    rw [sendEvents_bits]
    rfl
  rw [hlow, replay_bits (w := observe w (.pin .latch false)) _ 16 hc, wiresAfter, takeInBits_frame]
  rfl

/-- Settles O24: of the 50 events only the last writes `latch` to 1, and by then the shift stage holds the frame. -/
theorem outputsAreFrozenDuringSend : Obligations.OutputsAreFrozenDuringSend := by
  unfold Obligations.OutputsAreFrozenDuringSend
  intro s t seg sel n hp hc hx
  have hlog : t.log.drop s.log.length = sendEvents seg sel := by
    obtain rfl := Host.Outcome.next.inj hx
    rw [requestSend_eq seg sel hp hc]
    exact List.drop_left
  rw [hlog]
  refine ⟨fun hn => replay_take_sendEvents_out _ seg sel hn, fun hn => ?_⟩
  rw [List.take_of_length_le (by rwa [sendEvents_length])]
  exact replay_sendEvents_out hc seg sel

/-! ### The value of a RENDER (R57, R121) -/

/-- The low four decimal digits of a value are those of its remainder by 10000: where `k * 10` divides 10000, the digit at
`k` does not see what is above (R77). -/
theorem decimalDigit_mod (v : Value) {k : Nat} (hk : k * 10 ∣ 10000) :
    decimalDigit (BitVec.ofNat 16 (v.toNat % 10000)) k = decimalDigit v k := by
  have hlt : v.toNat % 10000 < 2 ^ 16 := Nat.lt_trans (Nat.mod_lt _ (by decide)) (by decide)
  obtain ⟨j, hj⟩ := hk
  apply BitVec.eq_of_toNat_eq
  rw [decimalDigit_toNat, decimalDigit_toNat, BitVec.toNat_ofNat, Nat.mod_eq_of_lt hlt, hj, Nat.mul_assoc,
    Nat.mod_mul_right_div_self, Nat.mod_mul_right_mod]

theorem digitsOf_mod (v : Value) : digitsOf (BitVec.ofNat 16 (v.toNat % 10000)) = digitsOf v := by
  simp only [digitsOf, decimalDigit_mod v (k := 1000) (by decide), decimalDigit_mod v (k := 100) (by decide),
    decimalDigit_mod v (k := 10) (by decide), decimalDigit_mod v (k := 1) (by decide)]

/-- A RENDER sees its value through the digits alone (R121, R123). -/
theorem requestRender_congr {v w : Value} (h : digitsOf v = digitsOf w) (en : Bool) (pos : Position) (s : State) :
    requestRender en pos v s = requestRender en pos w s := by
  simp only [requestRender, acceptRender, decomposeValue, h]

/-- Settles O32: a RENDER sees the digits alone, and they are those of the remainder by 10000. -/
theorem renderTruncatesSilently : Obligations.RenderTruncatesSilently := by
  unfold Obligations.RenderTruncatesSilently
  intro s en pos v
  exact congrArg Host.Outcome.next (requestRender_congr (digitsOf_mod v).symm en pos s)

/-! ### Requests that meet a busy block (R56, R63, R64, R86, R150) -/

/-- The lines, the receiver, the pin trace and every register of an operation in progress are the same in both states. -/
def SameBlock (t u : State) : Prop :=
  wiresOf t = wiresOf u ∧ t.trace = u.trace ∧ t.digits = u.digits ∧ t.dpEnR = u.dpEnR ∧ t.dpPosR = u.dpPosR ∧
  t.frame = u.frame ∧ t.phase = u.phase ∧ t.digitIdx = u.digitIdx ∧ t.bitIdx = u.bitIdx ∧ t.raw = u.raw ∧
  t.dwellCnt = u.dwellCnt ∧ t.done = u.done

theorem SameBlock.refl (s : State) : SameBlock s s := ⟨rfl, rfl, rfl, rfl, rfl, rfl, rfl, rfl, rfl, rfl, rfl, rfl⟩

/-- How many edges of the operation in progress the operation asked for stands for (log 16). -/
def edgesOfOperation (i : Instr) (s : State) : Nat :=
  match i with
  | .shiftBit b => if ShiftBitDue b s then 3 else 0
  | .shiftByte w => if ShiftByteDue w s then 24 else 0
  | _ => 0

/-- None, but for a SHIFT_BIT's 3 and a SHIFT_BYTE's 24 (R106). -/
theorem edgesOfOperation_cases (i : Instr) (s : State) :
    edgesOfOperation i s = 0 ∨ ((∃ b, i = .shiftBit b) ∧ edgesOfOperation i s = 3) ∨
      ((∃ w, i = .shiftByte w) ∧ edgesOfOperation i s = 24) := by
  unfold edgesOfOperation
  split
  · next b =>
    split
    · exact .inr (.inl ⟨⟨b, rfl⟩, rfl⟩)
    · exact .inl rfl
  · next w =>
    split
    · exact .inr (.inr ⟨⟨w, rfl⟩, rfl⟩)
    · exact .inl rfl
  · exact .inl rfl

/-- A busy block moves only by the edges the operation asked for stands for (R86, R128): SEND, RENDER and DECOMPOSE are ignored,
and the last rows write ClockState or the encoder's answer, which are no part of the block's operation. -/
theorem exec_sameBlock_of_busy {i : Instr} {s t : State} (harb : i ≠ .arbIterate) (hp : s.phase ≠ .idle)
    (hx : exec i s = .next t) : SameBlock t (edges (List.replicate (edgesOfOperation i s) noRequest) s) := by
  cases i with
  | arbIterate => exact absurd rfl harb
  | shiftBit b =>
    obtain rfl := Host.Outcome.next.inj ((execShiftBit_edges b s).symm.trans hx)
    exact .refl _
  | shiftByte w =>
    obtain rfl := Host.Outcome.next.inj ((execShiftByte_edges w s).symm.trans hx)
    exact .refl _
  | send seg sel =>
    obtain rfl := Host.Outcome.next.inj hx
    rw [requestSend_busy seg sel hp]
    exact .refl s
  | render en pos v =>
    obtain rfl := Host.Outcome.next.inj hx
    rw [requestRender_busy en pos v hp]
    exact .refl s
  | decompose x v =>
    obtain rfl := Host.Outcome.next.inj hx
    rw [whenIdle_busy hp]
    exact .refl s
  | tkAdvance | tkReset | encode | applyDp | encodeDp | seg0 | seg1 | seg2 | seg3 | seg4 | seg5 | seg6 | seg7 | seg8
  | seg9 | dsel0 | dsel1 | dsel2 | dsel3 =>
    obtain rfl := Host.Outcome.next.inj hx
    exact .refl s

/-- An ARB_ITERATE waits for the operation in progress and is then what it is in the idle block (R150). -/
theorem exec_arbIterate_awaitIdle {s : State} (hd : DwellCounts s) :
    exec .arbIterate s = exec .arbIterate (awaitIdle s) := by
  have hidle : awaitIdle (awaitIdle s) = awaitIdle s := awaitIdle_idle (awaitIdleFor_phase (Nat.le_refl _) hd)
  simp only [exec, execArbIterate, hidle]

/-- Settles O60: what is asked for is ignored, touches nothing of the block, or is the sequencer's own edges. -/
theorem noOperationDisturbsABusyBlock : Obligations.NoOperationDisturbsABusyBlock := by
  unfold Obligations.NoOperationDisturbsABusyBlock
  refine ⟨fun i s t harb hp hx => ?_, fun s _ hd => ?_⟩
  · exact ⟨edgesOfOperation i s, edgesOfOperation_cases i s, exec_sameBlock_of_busy harb hp hx⟩
  · exact ⟨awaitIdle s, awaitIdle_waits hd, exec_arbIterate_awaitIdle hd⟩

end Sys2Proof.Machine

namespace Sys2Proof

/-! Request words (spec/30_encoding.md R73 to R76, R80): the decoder reads every field back from where the encoder put it, and a
word the decoder accepts has nothing beside its row's fields and fixed bits. -/

/-! ### Reading the fields of an encoded word -/

/-- Every operation's word is a word of the row it selects (R76). -/
theorem encode_isRowWord (i : Instr) : Laws.EncodedWord.Statement i := by
  cases i with
  | encode d => exact Laws.EncodedWord.encode d
  | applyDp p => exact Laws.EncodedWord.applyDp p
  | encodeDp e d => exact Laws.EncodedWord.encodeDp e d
  | shiftBit b => exact Laws.EncodedWord.shiftBit b
  | shiftByte w => exact Laws.EncodedWord.shiftByte w
  | send s m => exact Laws.EncodedWord.send s m
  | decompose x v => exact Laws.EncodedWord.decompose x v
  | render e p v => exact Laws.EncodedWord.render e p v
  | tkAdvance => exact Laws.EncodedWord.tkAdvance
  | tkReset => exact Laws.EncodedWord.tkReset
  | arbIterate => exact Laws.EncodedWord.arbIterate
  | seg0 p => exact Laws.EncodedWord.seg0 p
  | seg1 p => exact Laws.EncodedWord.seg1 p
  | seg2 p => exact Laws.EncodedWord.seg2 p
  | seg3 p => exact Laws.EncodedWord.seg3 p
  | seg4 p => exact Laws.EncodedWord.seg4 p
  | seg5 p => exact Laws.EncodedWord.seg5 p
  | seg6 p => exact Laws.EncodedWord.seg6 p
  | seg7 p => exact Laws.EncodedWord.seg7 p
  | seg8 p => exact Laws.EncodedWord.seg8 p
  | seg9 p => exact Laws.EncodedWord.seg9 p
  | dsel0 => exact Laws.EncodedWord.dsel0
  | dsel1 => exact Laws.EncodedWord.dsel1
  | dsel2 => exact Laws.EncodedWord.dsel2
  | dsel3 => exact Laws.EncodedWord.dsel3

theorem field_of_widened {n : Nat} (f : BitVec n) (h : n ≤ 24) : (f.setWidth 24).extractLsb' 0 n = f := by
  rw [BitVec.extractLsb'_setWidth_of_le (by omega), BitVec.extractLsb'_eq_self]

/-- The lower of two fields joined. -/
theorem lowField_of_widened {m n : Nat} (a : BitVec m) (b : BitVec n) (h : n ≤ 24) :
    ((a ++ b).setWidth 24).extractLsb' 0 n = b := by
  rw [BitVec.extractLsb'_setWidth_of_le (by omega), BitVec.extractLsb'_append_eq_right]

/-- The upper of two fields joined. -/
theorem highField_of_widened {m n : Nat} (a : BitVec m) (b : BitVec n) (h : n + m ≤ 24) :
    ((a ++ b).setWidth 24).extractLsb' n m = a := by
  rw [BitVec.extractLsb'_setWidth_of_le h, BitVec.extractLsb'_append_eq_left]

/-- A single bit above a field. -/
theorem highBit_of_widened {n : Nat} (e : Bool) (b : BitVec n) (h : n < 24) :
    ((BitVec.ofBool e ++ b).setWidth 24).getLsbD n = e := by
  rw [BitVec.getLsbD_setWidth, getLsbD_fields, if_neg (Nat.lt_irrefl n), Nat.sub_self]
  simp [h]

theorem bit_of_widened (b : Bool) : ((BitVec.ofBool b).setWidth 24).getLsbD 0 = b := by
  simp

/-- Bit 7 of a SEG word is the point's drive (R92). -/
theorem segWord_point (p : Bool) (low : BitVec 7) : (segWord p low).getLsbD 7 = p :=
  highBit_of_widened p low (by decide)

/-- The policy and the value of a RENDER word (R76): `e` in bit 18, `p` in bits 17 and 16, `v` below. -/
theorem operands_render (e : Bool) (p : Position) (v : Value) :
    Select.render.operands ((BitVec.ofBool e ++ p ++ v).setWidth 24) = .render e p v := by
  have hassoc : (BitVec.ofBool e ++ p ++ v).setWidth 24 = (BitVec.ofBool e ++ (p ++ v)).setWidth 24 := by
    rw [BitVec.append_assoc']
    rfl
  have he : ((BitVec.ofBool e ++ p ++ v).setWidth 24).getLsbD 18 = e := by
    rw [hassoc]
    exact highBit_of_widened e (p ++ v) (by decide)
  have hp : ((BitVec.ofBool e ++ p ++ v).setWidth 24).extractLsb' 16 2 = p := by
    rw [hassoc, BitVec.extractLsb'_setWidth_of_le (by decide), BitVec.extractLsb'_append_eq_of_add_le (by decide),
      BitVec.extractLsb'_append_eq_left]
  rw [Select.operands, he, hp, lowField_of_widened _ v (by decide)]

/-- The decoder reads an operation's operands back from its word (R76). -/
theorem operands_encode (i : Instr) : (encode i).1.operands (encode i).2 = i := by
  cases i with
  | encode d => exact congrArg Instr.encode (field_of_widened d (by decide))
  | applyDp p => exact congrArg Instr.applyDp (field_of_widened p (by decide))
  | encodeDp e d =>
    exact congrArg₂ Instr.encodeDp (highBit_of_widened e d (by decide)) (lowField_of_widened _ d (by decide))
  | shiftBit b => exact congrArg Instr.shiftBit (bit_of_widened b)
  | shiftByte w => exact congrArg Instr.shiftByte (field_of_widened w (by decide))
  | send s m =>
    exact congrArg₂ Instr.send (highField_of_widened s m (by decide)) (lowField_of_widened s m (by decide))
  | decompose x v =>
    exact congrArg₂ Instr.decompose (highField_of_widened x v (by decide)) (lowField_of_widened x v (by decide))
  | render e p v => exact operands_render e p v
  | seg0 p | seg1 p | seg2 p | seg3 p | seg4 p | seg5 p | seg6 p | seg7 p | seg8 p | seg9 p =>
    simp only [encode, Select.operands, segWord_point]
  | tkAdvance | tkReset | arbIterate | dsel0 | dsel1 | dsel2 | dsel3 => rfl

/-- Settles O1: the word is one of its row, and its operands are read back. -/
theorem decodeOfEncodeIsSame : Obligations.DecodeOfEncodeIsSame := by
  unfold Obligations.DecodeOfEncodeIsSame
  intro i
  obtain ⟨hwidth, hfixed⟩ := encode_isRowWord i
  rw [decode_ok hwidth hfixed, operands_encode]

/-! ### Writing an accepted word again -/

/-- A word within a width is its field of that width. -/
theorem widened_field {w : RequestWord} {n : Nat} (h : w.toNat < 2 ^ n) : (w.extractLsb' 0 n).setWidth 24 = w := by
  refine setWidth_of_bits h _ fun i hi => ?_
  rw [BitVec.getLsbD_extractLsb', decide_eq_true hi, Bool.true_and, Nat.zero_add]

theorem ofBool_getLsbD (w : RequestWord) (i : Nat) : BitVec.ofBool (w.getLsbD i) = w.extractLsb' i 1 := by
  rw [BitVec.getLsbD_eq_extractLsb']
  generalize w.extractLsb' i 1 = b
  revert b
  decide

/-- A word within two neighbouring fields is those fields joined. -/
theorem widened_fields {w : RequestWord} {m n : Nat} (h : w.toNat < 2 ^ (m + n)) :
    (w.extractLsb' n m ++ w.extractLsb' 0 n).setWidth 24 = w := by
  rw [BitVec.extractLsb'_append_extractLsb'_eq_extractLsb' (Nat.zero_add n).symm]
  exact widened_field h

/-- A word within a field and the bit above it. -/
theorem widened_bit_field {w : RequestWord} {n : Nat} (h : w.toNat < 2 ^ (1 + n)) :
    (BitVec.ofBool (w.getLsbD n) ++ w.extractLsb' 0 n).setWidth 24 = w := by
  rw [ofBool_getLsbD]
  exact widened_fields h

/-- Where the mask covers a field, an accepted word's field is the fixed one. -/
theorem field_fixed {w m : RequestWord} {n : Nat} (f : BitVec n) (hn : n ≤ 24)
    (hm : m.extractLsb' 0 n = BitVec.allOnes n) (hf : w &&& m = f.setWidth 24) : w.extractLsb' 0 n = f := by
  have h := congrArg (BitVec.extractLsb' 0 n) hf
  rwa [BitVec.extractLsb'_and, hm, BitVec.and_allOnes, field_of_widened f hn] at h

/-- A word of a SEG row is the point's bit above the seven fixed ones (R92). -/
theorem segWord_of_row {w : RequestWord} (low : BitVec 7) (h : w.toNat < 2 ^ 8)
    (hf : w &&& 0x7F = low.setWidth 24) : segWord (w.getLsbD 7) low = w := by
  rw [segWord, ← field_fixed low (by decide) (by decide) hf]
  exact widened_bit_field h

/-- A word of a DSEL row is its eight fixed bits (R51). -/
theorem mask_of_row {w : RequestWord} (m : Byte) (h : w.toNat < 2 ^ 8) (hf : w &&& 0xFF = m.setWidth 24) :
    m.setWidth 24 = w := by
  rw [← field_fixed m (by decide) (by decide) hf]
  exact widened_field h

/-- A word of the ENCODE row is its digit: the bit above is 0 (R76, R93). -/
theorem digit_of_row {w : RequestWord} (h : w.toNat < 2 ^ 5) (hf : w &&& 0x10 = 0x00) :
    (w.extractLsb' 0 4).setWidth 24 = w := by
  have hbit : w.getLsbD 4 = false := getLsbD_fixed hf (i := 4) (by decide)
  have hzero : ∀ d : Digit, d.setWidth 24 = (BitVec.ofBool false ++ d).setWidth 24 := by decide
  rw [hzero, ← hbit]
  exact widened_bit_field h

/-- A word of a row without bits (R141, R142, R145). -/
theorem zero_of_row {w : RequestWord} (h : w.toNat < 2 ^ 0) : 0 = w :=
  (BitVec.eq_of_toNat_eq (Nat.lt_one_iff.mp h)).symm

/-- The word of a RENDER row from its three fields (R76). -/
theorem renderWord_of_row {w : RequestWord} (h : w.toNat < 2 ^ 19) :
    (BitVec.ofBool (w.getLsbD 18) ++ w.extractLsb' 16 2 ++ w.extractLsb' 0 16).setWidth 24 = w := by
  have hpolicy : BitVec.ofBool (w.getLsbD 18) ++ w.extractLsb' 16 2 = w.extractLsb' 16 3 := by
    rw [ofBool_getLsbD]
    exact BitVec.extractLsb'_append_extractLsb'_eq_extractLsb' rfl
  rw [hpolicy]
  exact widened_fields h

/-- The encoder gives a row's word for the operands read from it (R76). -/
theorem encode_operands {k : Select} {w : RequestWord} (h : w.toNat < 2 ^ k.row.width)
    (hf : w &&& k.row.mask = k.row.pattern) : encode (k.operands w) = (k, w) := by
  cases k with
  | encode => exact congrArg (Prod.mk _) (digit_of_row h hf)
  | applyDp => exact congrArg (Prod.mk _) (widened_field h)
  | encodeDp => exact congrArg (Prod.mk _) (widened_bit_field h)
  | shiftBit => exact congrArg (Prod.mk _) (by rw [ofBool_getLsbD]; exact widened_field h)
  | shiftByte => exact congrArg (Prod.mk _) (widened_field h)
  | send => exact congrArg (Prod.mk _) (widened_fields h)
  | decompose => exact congrArg (Prod.mk _) (widened_fields h)
  | render => exact congrArg (Prod.mk _) (renderWord_of_row h)
  | tkAdvance | tkReset | arbIterate => exact congrArg (Prod.mk _) (zero_of_row h)
  | seg0 | seg1 | seg2 | seg3 | seg4 | seg5 | seg6 | seg7 | seg8 | seg9 =>
    exact congrArg (Prod.mk _) (segWord_of_row _ h hf)
  | dsel0 => exact congrArg (Prod.mk _) (mask_of_row 0x01 h hf)
  | dsel1 => exact congrArg (Prod.mk _) (mask_of_row 0x02 h hf)
  | dsel2 => exact congrArg (Prod.mk _) (mask_of_row 0x04 h hf)
  | dsel3 => exact congrArg (Prod.mk _) (mask_of_row 0x08 h hf)

/-- Settles O2: an accepted word is its row's, and such a word is the encoding of its operands. -/
theorem encodeOfDecodeIsSame : Obligations.EncodeOfDecodeIsSame := by
  unfold Obligations.EncodeOfDecodeIsSame
  intro k w i hd
  obtain ⟨hwidth, hfixed, rfl⟩ := of_decode_ok hd
  exact encode_operands hwidth hfixed

/-! ### Which words a row accepts -/

theorem decode_tooWide {k : Select} {w : RequestWord} (h : 2 ^ k.row.width ≤ w.toNat) : decode k w = .error .tooWide :=
  if_pos h

theorem decode_fixedBits {k : Select} {w : RequestWord} (h : w.toNat < 2 ^ k.row.width)
    (hf : w &&& k.row.mask ≠ k.row.pattern) : decode k w = .error .fixedBits := by
  rw [decode, if_neg (Nat.not_le.mpr h), if_pos hf]

/-- Settles O3: the two checks of the decoder are the row's width and its fixed bits. -/
theorem decodeAcceptsExactlyTheRowsWords : Obligations.DecodeAcceptsExactlyTheRowsWords := by
  unfold Obligations.DecodeAcceptsExactlyTheRowsWords
  intro k w
  exact ⟨decode_tooWide, decode_fixedBits, fun h hf => ⟨k.operands w, decode_ok h hf⟩⟩

/-- Settles O4: each word is decoded. -/
theorem workedWordsDecode : Obligations.WorkedWordsDecode := by
  unfold Obligations.WorkedWordsDecode
  decide

end Sys2Proof

namespace Sys2Proof.Machine

/-! How a request becomes an operation (spec/30_encoding.md R80), what a pattern or a mask shows (R81), and the driver's and the
multiplexer's operations as the ones they are made of (R86), whatever the level of the clock. -/

open Sys2Proof.Safety

/-! ### Steps -/

/-- A step with a request at the head of the schedule (log 3). -/
theorem step_request {s : State} {k : Select} {w : RequestWord} {rest : List Action} (h : s.schedule = .op k w :: rest) :
    step s = runRequest k w { s with schedule := rest } := by
  rw [step, h]

theorem runRequest_ok {k : Select} {w : RequestWord} {i : Instr} (h : decode k w = .ok i) (s : State) :
    runRequest k w s = exec i s := by
  rw [runRequest, h]

theorem decode_of_decodeTableWord {nbits w : Nat} {i : Instr} (h : decodeTableWord nbits w = some i) :
    decode (tableRequest nbits w).1 (tableRequest nbits w).2 = .ok i := by
  unfold decodeTableWord at h
  split at h
  · next hd => rw [hd, Option.some.inj h]
  · cases h

/-- Settles O5: the request is taken off, decoded and executed. -/
theorem stepRunsDecodedRequest : Obligations.StepRunsDecodedRequest := by
  unfold Obligations.StepRunsDecodedRequest
  intro s k w rest i hs hd
  rw [step_request hs, runRequest_ok hd]

/-- Settles O6: the placed word is the request at the head, and taking it off leaves the state as it was. -/
theorem stepRunsPlacedWord : Obligations.StepRunsPlacedWord := by
  unfold Obligations.StepRunsPlacedWord
  intro s nbits w i h
  have hhead : (s.withFetchWord nbits w).schedule =
      .op (tableRequest nbits w).1 (tableRequest nbits w).2 :: s.schedule := rfl
  rw [step_request hhead, runRequest_ok (decode_of_decodeTableWord h)]
  rfl

/-! ### What a pattern and a mask show (R81) -/

theorem segRead_of_findDigit {p : Byte} {ds : List Digit} {d : Digit} (h : findDigit p ds = some d) :
    segRead d = some p ∧ d ∈ ds := by
  induction ds with
  | nil => cases h
  | cons e ds ih =>
    rw [findDigit] at h
    split at h
    · next hread =>
      obtain rfl := Option.some.inj h
      exact ⟨hread, List.mem_cons_self⟩
    · obtain ⟨hread, hmem⟩ := ih h
      exact ⟨hread, List.mem_cons_of_mem e hmem⟩

/-- A pattern that shows a digit is that digit's but for bit 7 (R81, R92). -/
theorem pattern_of_shownDigit {p : Byte} {d : Digit} (h : shownDigit p = some d) :
    p ||| 0x80 = ~~~(Config.segCC.getD d.toNat 0) := by
  obtain ⟨hread, hmem⟩ := segRead_of_findDigit h
  have hlegal : ∀ d ∈ ([0, 1, 2, 3, 4, 5, 6, 7, 8, 9] : List Digit), d.toNat ≤ 9 := by decide
  rw [segRead_legal (hlegal d hmem)] at hread
  exact (Option.some.inj hread).symm

/-- The twenty patterns of the default table show their digit and their point (R81, log 5). -/
theorem tablePattern_shows : ∀ (d : Digit) (e : Bool), d.toNat ≤ 9 →
    shownDigit (if e then ~~~(Config.segCC.getD d.toNat 0) &&& 0x7F else ~~~(Config.segCC.getD d.toNat 0)) = some d ∧
    pointLit (if e then ~~~(Config.segCC.getD d.toNat 0) &&& 0x7F else ~~~(Config.segCC.getD d.toNat 0)) = e := by
  decide

theorem shownPosition_oneHot (i : Position) : shownPosition (oneHot i) = some i := by
  revert i
  decide

theorem oneHot_of_shownPosition {m : Byte} {i : Position} (h : shownPosition m = some i) : m = oneHot i := by
  rw [← dselRead_eq]
  unfold shownPosition at h
  repeat' split at h
  all_goals cases h <;> assumption

/-- Settles O19: the table's patterns one by one, and the two inverse maps read backwards. -/
theorem patternsShowTheirDigit : Obligations.PatternsShowTheirDigit := by
  unfold Obligations.PatternsShowTheirDigit
  refine ⟨fun s t e d hd hx => ?_, fun p d => pattern_of_shownDigit, fun m i => ⟨oneHot_of_shownPosition, ?_⟩⟩
  · have hres : t.result = encoderAnswer d e s := by
      obtain rfl := Host.Outcome.next.inj hx
      rfl
    rw [hres, encoderAnswer_legal hd]
    exact tablePattern_shows d e hd
  · rintro rfl
    exact shownPosition_oneHot i

/-! ### SHIFT_BYTE and SEND as the operations they are made of (R86, R102, R104) -/

theorem bitIdx_ne_zero {s : State} (h : 0 < s.bitIdx.toNat) : s.bitIdx ≠ 0 := fun h0 => by
  rw [h0] at h
  exact Nat.lt_irrefl 0 h

/-- A step SHIFT_BIT of a SEND in progress that is not the frame's last leaves it one bit on in the same frame (R101, R104). -/
theorem sendBit_position (b : Bool) {s : State} (h : 0 < s.bitIdx.toNat) :
    (sendBit b s).phase = .dataOut ∧ (sendBit b s).bitIdx.toNat = s.bitIdx.toNat - 1 ∧
      (sendBit b s).frame = s.frame := by
  have hb := bitIdx_ne_zero h
  have hs : sendBit b s = { shiftOutBit b s with bitIdx := s.bitIdx - 1, phase := .dataOut, done := false } := if_neg hb
  rw [hs]
  exact ⟨rfl, bitIdx_pred hb, rfl⟩

/-- `n` steps leave it `n` bits on, if it has more than `n` to go (R102). -/
theorem sendBits_position (w : Byte) (n : Nat) {s : State} (hp : s.phase = .dataOut) (hn : n ≤ s.bitIdx.toNat) :
    (sendBits w n s).phase = .dataOut ∧ (sendBits w n s).bitIdx.toNat = s.bitIdx.toNat - n ∧
      (sendBits w n s).frame = s.frame := by
  induction n generalizing s with
  | zero => exact ⟨hp, rfl, rfl⟩
  | succ n ih =>
    obtain ⟨hphase, hidx, hframe⟩ := sendBit_position (w.getLsbD n) (Nat.lt_of_lt_of_le n.succ_pos hn)
    obtain ⟨hphase', hidx', hframe'⟩ := ih hphase (by omega)
    exact ⟨hphase', by rw [sendBits, hidx', hidx]; omega, hframe'.trans hframe⟩

/-- The SEND in progress has come to bit `n` of `w`, and the bits of `w` below are the ones that follow (R102). -/
def BitsDue (w : Byte) (n : Nat) (s : State) : Prop :=
  s.phase = .dataOut ∧ n ≤ s.bitIdx.toNat ∧ ∀ i, i ≤ n → s.frame.getLsbD (s.bitIdx.toNat - n + i) = w.getLsbD i

theorem ShiftByteDue.bitsDue {w : Byte} {s : State} (h : ShiftByteDue w s) : BitsDue w 7 s :=
  ⟨h.1, shiftByteDue_bits h⟩

theorem BitsDue.shiftBitDue {w : Byte} {n : Nat} {s : State} (h : BitsDue w n s) : ShiftBitDue (w.getLsbD n) s := by
  obtain ⟨hp, hn, hbits⟩ := h
  refine ⟨hp, ?_⟩
  rw [← hbits n (Nat.le_refl n), Nat.sub_add_cancel hn]

theorem BitsDue.after_sendBit {w : Byte} {n : Nat} {s : State} (h : BitsDue w (n + 1) s) :
    BitsDue w n (sendBit (w.getLsbD (n + 1)) s) := by
  obtain ⟨hp, hn, hbits⟩ := h
  obtain ⟨hphase, hidx, hframe⟩ := sendBit_position (w.getLsbD (n + 1)) (Nat.lt_of_lt_of_le n.succ_pos hn)
  refine ⟨hphase, by omega, fun i hi => ?_⟩
  rw [hframe, hidx, ← hbits i (by omega)]
  congr 1
  omega

/-- SHIFT_BIT of bit `i` of `w` as an operation of its own, its answer as a state (R101). -/
def shiftBitOf (w : Byte) (s : State) (i : Nat) : Option State :=
  match exec (.shiftBit (w.getLsbD i)) s with
  | .next t => some t
  | .fault _ => none
  | .refused _ => none

theorem shiftBitOf_due {w : Byte} {i : Nat} {s : State} (h : ShiftBitDue (w.getLsbD i) s) :
    shiftBitOf w s i = some (sendBit (w.getLsbD i) s) := by
  rw [shiftBitOf, exec, execShiftBit, if_pos h]

/-- The operations SHIFT_BIT one after the other, from bit `n` down, are the steps of the SEND in progress (R102). -/
theorem foldlM_shiftBitOf (w : Byte) (n : Nat) {s : State} (h : BitsDue w n s) :
    (List.range (n + 1)).reverse.foldlM (shiftBitOf w) s = some (sendBits w (n + 1) s) := by
  induction n generalizing s with
  | zero =>
    show shiftBitOf w s 0 >>= some = _
    rw [shiftBitOf_due h.shiftBitDue]
    rfl
  | succ n ih =>
    rw [List.range_succ, List.reverse_append, List.foldlM_append]
    show (shiftBitOf w s (n + 1) >>= some) >>= _ = _
    rw [shiftBitOf_due h.shiftBitDue]
    exact ih h.after_sendBit

theorem execShiftByte_due {w : Byte} {s : State} (h : ShiftByteDue w s) : execShiftByte w s = .next (sendBits w 8 s) := by
  rw [execShiftByte, if_pos h]

/-- A SHIFT_BYTE that is due is twenty-four edges (R106). -/
theorem edges_shiftByteDue {w : Byte} {s : State} (h : ShiftByteDue w s) :
    edges (List.replicate 24 noRequest) s = sendBits w 8 s := by
  obtain ⟨hp, hn, hbits⟩ := h.bitsDue
  exact edges_sendBits w 7 rfl (noReset_replicate 24) hp hn hbits

/-- The LATCH_LO row of a bare SEND (R130). -/
theorem clockEdge_latchLo_raw {p : Ports} (h : p.rst = false) {s : State} (hp : s.phase = .latchLo)
    (hr : s.raw = true) :
    clockEdge p s = { pinWrite .latch false s with bitIdx := 15, phase := .dataOut, done := false } := by
  rw [clockEdge_run h, sequencerEdge, hp]
  simp only [latchLoEdge_raw hr]
  rfl

/-- At the head of a frame its segments are due, and after them its digit select (R73, R104). -/
theorem shiftByteDue_frame {s : State} {seg sel : Byte} (hp : s.phase = .dataOut) (hb : s.bitIdx = 15)
    (hf : s.frame = seg ++ sel) : ShiftByteDue seg s ∧ ShiftByteDue sel (sendBits seg 8 s) := by
  have hfifteen : s.bitIdx.toNat = 15 := by rw [hb]; rfl
  obtain ⟨hphase, hidx, hframe⟩ := sendBits_position seg 8 hp (by omega)
  refine ⟨⟨hp, .inl ⟨hb, ?_⟩⟩, ⟨hphase, .inr ⟨?_, ?_⟩⟩⟩
  · rw [hf, BitVec.extractLsb'_append_eq_left]
  · apply BitVec.eq_of_toNat_eq
    rw [hidx, hfifteen]
    rfl
  · rw [hframe, hf, BitVec.extractLsb'_append_eq_right]

/-- The acceptance of a bare SEND and `latch <- 0` leave the SEND at the head of its frame (R104, R107). -/
theorem shiftByteDue_acceptSend {p q : Ports} (hp : p.rst = false) (hs : p.start = false) (hn : p.sndStart = true)
    (hq : q.rst = false) {s : State} (hi : s.phase = .idle) :
    ShiftByteDue p.sndSegments (clockEdge q (clockEdge p s)) ∧
      ShiftByteDue p.sndDigitSelect (sendBits p.sndSegments 8 (clockEdge q (clockEdge p s))) := by
  rw [clockEdge_acceptSend hp hs hn hi, clockEdge_latchLo_raw hq rfl rfl]
  exact shiftByteDue_frame rfl rfl rfl

/-- Settles O25: each SHIFT_BIT leaves the next one due, and the operations of a SEND are its 51 edges. -/
theorem driverOperationsExpand : Obligations.DriverOperationsExpand := by
  unfold Obligations.DriverOperationsExpand
  refine ⟨fun s w hp hdue => ?_, fun s t u v p q r hp hprst hs hn hqrst hrrst ht hu hv => ?_⟩
  · have hbyte : ShiftByteDue w s := ⟨hp, hdue⟩
    have hbits := foldlM_shiftBitOf w 7 hbyte.bitsDue
    rw [exec, execShiftByte_due hbyte]
    exact (congrArg (Option.map Host.Outcome.next) hbits).symm
  · obtain ⟨hseg, hsel⟩ := shiftByteDue_acceptSend hprst hs hn hqrst hp
    obtain rfl := Host.Outcome.next.inj ht
    obtain rfl := Host.Outcome.next.inj ((execShiftByte_due hseg).symm.trans hu)
    obtain rfl := Host.Outcome.next.inj ((execShiftByte_due hsel).symm.trans hv)
    have hreset : NoReset (q :: (List.replicate 24 noRequest ++ (List.replicate 24 noRequest ++ [r]))) :=
      noReset_cons.mpr ⟨hqrst, noReset_append.mpr ⟨noReset_replicate 24,
        noReset_append.mpr ⟨noReset_replicate 24, by simpa [NoReset] using hrrst⟩⟩⟩
    rw [← edges_requestSend hprst hs hn rfl hreset hp, edges_cons, edges_cons, edges_append, edges_append,
      edges_shiftByteDue hseg, edges_shiftByteDue hsel]
    rfl

/-! ### RENDER as DECOMPOSE and four SENDs (R86, R123) -/

/-- The events logged on the way from one state to another, which explain what became of the lines and the receiver. -/
def Logs (es : List Event) (s t : State) : Prop :=
  t.log = s.log ++ es ∧ wiresOf t = replay (wiresOf s) es

theorem logs_of_accounts {s t : State} {es : List Event} (h : LogAccounts s t) (hl : t.log = s.log ++ es) :
    Logs es s t := by
  obtain ⟨es', hl', hw⟩ := h
  obtain rfl : es = es' := List.append_cancel_left (hl.symm.trans hl')
  exact ⟨hl, hw⟩

theorem Logs.trans {es es' : List Event} {s t u : State} (h : Logs es s t) (h' : Logs es' t u) :
    Logs (es ++ es') s u := by
  obtain ⟨hl, hw⟩ := h
  obtain ⟨hl', hw'⟩ := h'
  exact ⟨by rw [hl', hl, List.append_assoc], by rw [hw', hw, replay_append]⟩

theorem Logs.trace {es : List Event} {s t : State} (h : Logs es s t) :
    t.trace = s.trace ++ es.filterMap Event.pinEvent := by
  rw [State.trace, h.1, List.filterMap_append]
  rfl

/-- `done` is none of the lines (R31). -/
theorem Logs.withDone {es : List Event} {s t : State} (h : Logs es s t) (dn : Bool) : Logs es s { t with done := dn } := h

/-- The acceptance of a request moves no line and logs nothing (R107, R127). -/
theorem Logs.of_accepted {es : List Event} {s s' t : State} (h : Logs es s' t) (hl : s'.log = s.log)
    (hw : wiresOf s' = wiresOf s) : Logs es s t := by
  rwa [Logs, hl, hw] at h

theorem shiftOutFrame_log (n : Nat) (s : State) :
    (shiftOutFrame n s).log = s.log ++ bitsEvents s.frame.getLsbD n := by
  induction n generalizing s with
  | zero => simp [shiftOutFrame, bitsEvents]
  | succ n ih =>
    rw [shiftOutFrame, ih]
    simp [shiftOutBit, bitsEvents, bitEvents]

/-- The events of a SEND of the loaded frame, whatever the level of the clock (R104, R105). -/
theorem sendFrame_log {s : State} {seg sel : Byte} (hf : s.frame = seg ++ sel) :
    (sendFrame s).log = s.log ++ sendEvents seg sel := by
  rw [sendFrame, pinWrite_log, shiftOutFrame_log, sendEvents_bits]
  simp [hf]

/-- A bare SEND request in an idle block (R104, R107). -/
theorem requestSend_logs (seg sel : Byte) {s : State} (hp : s.phase = .idle) :
    Logs (sendEvents seg sel) s (requestSend seg sel s) := by
  rw [requestSend_idle seg sel hp]
  have hsend : Logs (sendEvents seg sel) (acceptSend seg sel s) (sendFrame (acceptSend seg sel s)) :=
    logs_of_accounts (sendFrame_logAccounts _) (sendFrame_log rfl)
  exact (hsend.of_accepted rfl rfl).withDone true

/-- A bare SEND leaves the phase and the digits as they are (R104). -/
theorem requestSend_keeps (seg sel : Byte) {s : State} (hp : s.phase = .idle) :
    (requestSend seg sel s).phase = .idle ∧ (requestSend seg sel s).digits = s.digits := by
  rw [requestSend_idle seg sel hp, sendFrame_frame]
  exact ⟨hp, rfl⟩

/-- The SEND of the frame of digit index `i` of a pass, as a request of its own (R122). -/
def sendDigit (en : Bool) (pos : Position) (v : Value) (s : State) (i : Position) : State :=
  requestSend (passPattern en pos v i) (oneHot i) s

/-- The events of the SENDs of some digits of a pass (R104, R122). -/
def digitEvents (en : Bool) (pos : Position) (v : Value) (is : List Position) : List Event :=
  is.flatMap fun i => sendEvents (passPattern en pos v i) (oneHot i)

/-- SENDs one after the other from an idle block (R86). -/
theorem sendDigits_logs (en : Bool) (pos : Position) (v : Value) (is : List Position) {s : State} (hp : s.phase = .idle) :
    Logs (digitEvents en pos v is) s (is.foldl (sendDigit en pos v) s) ∧
      (is.foldl (sendDigit en pos v) s).digits = s.digits := by
  induction is generalizing s with
  | nil => exact ⟨⟨(List.append_nil _).symm, rfl⟩, rfl⟩
  | cons i is ih =>
    obtain ⟨hphase, hdigits⟩ := requestSend_keeps (passPattern en pos v i) (oneHot i) hp
    obtain ⟨hlogs, hrest⟩ := ih (s := sendDigit en pos v s i) hphase
    exact ⟨(requestSend_logs (passPattern en pos v i) (oneHot i) hp).trans hlogs, hrest.trans hdigits⟩

/-- The operand registers hold the pass of `v` with that policy (R25). -/
def HoldsPass (en : Bool) (pos : Position) (v : Value) (s : State) : Prop :=
  s.digits = digitsOf v ∧ s.dpEnR = en ∧ s.dpPosR = pos

theorem runSlot_holdsPass {en : Bool} {pos : Position} {v : Value} {s : State} (i : Position)
    (h : HoldsPass en pos v s) : HoldsPass en pos v (runSlot i s) := by
  rw [runSlot_frame]
  exact h

/-- One slot of a pass, whatever the level of the clock (R124). -/
theorem runSlot_logs {en : Bool} {pos : Position} {v : Value} {s : State} (i : Position) (h : HoldsPass en pos v s) :
    Logs (slotEvents en pos v i) s (runSlot i s) := by
  obtain ⟨hd, he, hp⟩ := h
  have hframe : (loadSlot { s with digitIdx := i }).frame = passPattern en pos v i ++ oneHot i :=
    slotFrame_pass (s := { s with digitIdx := i }) en pos v hd he hp
  refine logs_of_accounts (runSlot_logAccounts i s) ?_
  rw [runSlot, dwellElapsed_log, sendFrame_log hframe, loadSlot_log, slotEvents, List.append_assoc]
  rfl

/-- Slots one after the other (R123). -/
theorem runSlots_logs {en : Bool} {pos : Position} {v : Value} (is : List Position) {s : State}
    (h : HoldsPass en pos v s) :
    Logs (is.flatMap (slotEvents en pos v)) s (is.foldl (fun u i => runSlot i u) s) := by
  induction is generalizing s with
  | nil => exact ⟨(List.append_nil _).symm, rfl⟩
  | cons i is ih => exact (runSlot_logs i h).trans (ih (runSlot_holdsPass i h))

/-- A RENDER request in an idle block, whatever the level of the clock (R123, R127). -/
theorem requestRender_logs (en : Bool) (pos : Position) (v : Value) {s : State} (hp : s.phase = .idle) :
    Logs (passEvents en pos v) s (requestRender en pos v s) ∧ (requestRender en pos v s).digits = digitsOf v := by
  have hpass : Logs (passEvents en pos v) (acceptRender en pos v s) (runPass (acceptRender en pos v s)) :=
    runSlots_logs [0, 1, 2, 3] ⟨rfl, rfl, rfl⟩
  rw [requestRender_idle en pos v hp]
  refine ⟨(hpass.of_accepted rfl rfl).withDone true, ?_⟩
  rw [runPass_frame]
  rfl

/-- Between a pass and the SENDs of its digits the dwells are the one difference, and they are no pin writes (R39). -/
theorem slotEvents_pins (en : Bool) (pos : Position) (v : Value) (is : List Position) :
    (is.flatMap (slotEvents en pos v)).filterMap Event.pinEvent = (digitEvents en pos v is).filterMap Event.pinEvent := by
  have hwait : [Event.wait 2].filterMap Event.pinEvent = [] := rfl
  simp only [digitEvents, List.filterMap_flatMap, slotEvents, List.filterMap_append, hwait, List.append_nil]

theorem replay_wait (w : Wires) (ms : Nat) : replay w [.wait ms] = w := rfl

/-- Nor does an observer of the lines see them (R12). -/
theorem slotEvents_replay (en : Bool) (pos : Position) (v : Value) (is : List Position) (w : Wires) :
    replay w (is.flatMap (slotEvents en pos v)) = replay w (digitEvents en pos v is) := by
  induction is generalizing w with
  | nil => rfl
  | cons i is ih =>
    have hslot : replay w (slotEvents en pos v i) = replay w (sendEvents (passPattern en pos v i) (oneHot i)) := by
      rw [slotEvents, replay_append, replay_wait]
    rw [digitEvents, List.flatMap_cons, List.flatMap_cons, replay_append, replay_append, hslot]
    exact ih _

/-- Settles O33: both ways log the same pin writes, and these alone move the lines and the receiver. -/
theorem renderExpandsToFourSends : Obligations.RenderExpandsToFourSends := by
  unfold Obligations.RenderExpandsToFourSends
  intro s t u0 u1 u2 u3 u4 en pos x v hp ht h0 h1 h2 h3 h4
  obtain rfl := Host.Outcome.next.inj ht
  obtain rfl := Host.Outcome.next.inj h0
  obtain rfl := Host.Outcome.next.inj h1
  obtain rfl := Host.Outcome.next.inj h2
  obtain rfl := Host.Outcome.next.inj h3
  obtain rfl := Host.Outcome.next.inj h4
  rw [whenIdle_idle hp]
  obtain ⟨hrender, hdigits⟩ := requestRender_logs en pos v hp
  obtain ⟨hsends, hdigits'⟩ := sendDigits_logs en pos v [0, 1, 2, 3] (s := decomposeValue v s) hp
  have hpins := congrArg (s.trace ++ ·) (slotEvents_pins en pos v [0, 1, 2, 3])
  have hreplay := slotEvents_replay en pos v [0, 1, 2, 3] (wiresOf s)
  refine ⟨?_, ?_, hdigits.trans hdigits'.symm⟩
  · exact (hrender.2.trans hreplay).trans hsends.2.symm
  · exact (hrender.trace.trans hpins).trans hsends.trace.symm

end Sys2Proof.Machine

namespace Sys2Proof.Machine

/-! The encoder (spec/40_segment_encoder.md): what ENCODE, ENCODE_DP, APPLY_DP and the SEG rows answer (R91 to R96), and that a
use of the encoder port leaves the cycle it falls in as it was (R95, 90_conflicts.md C10). -/

/-! ### What the three operations do -/

theorem exec_encode (d : Digit) (s : State) : exec (.encode d) s = .next (askEncoder d false s) := rfl

theorem exec_encodeDp (e : Bool) (d : Digit) (s : State) : exec (.encodeDp e d) s = .next (askEncoder d e s) := rfl

theorem exec_applyDp (p : Byte) (s : State) : exec (.applyDp p) s = .next { s with result := clearPoint p } := rfl

/-- A decimal digit is answered without a draw (R93, R95). -/
theorem askEncoder_legal {d : Digit} (h : d.toNat ≤ 9) (dp : Bool) (s : State) :
    askEncoder d dp s = { s with encPattern := encoderAnswer d dp s, result := encoderAnswer d dp s } := by
  rw [askEncoder, presentEncoder, drawsAfterEncode_legal h]

/-- Any other digit is answered by the next draw (R96, log 6). -/
theorem askEncoder_illegal {d : Digit} (h : 9 < d.toNat) (dp : Bool) (s : State) :
    askEncoder d dp s =
      { s with
        encPattern := Config.freeByte s.draws
        result := Config.freeByte s.draws
        draws := s.draws + 1 } := by
  rw [askEncoder, presentEncoder, drawsAfterEncode_illegal h, encoderAnswer_illegal h]

/-- The answer for a decimal digit shows that digit, and its point when asked for (R81). -/
theorem encoderAnswer_shows {d : Digit} (h : d.toNat ≤ 9) (e : Bool) (s : State) :
    shownDigit (encoderAnswer d e s) = some d ∧ pointLit (encoderAnswer d e s) = e := by
  rw [encoderAnswer_legal h]
  exact tablePattern_shows d e h

theorem getLsbD_seven_of_pointLit {p : Byte} {e : Bool} (h : pointLit p = e) : p.getLsbD 7 = !e := by
  rw [← h, pointLit, Bool.not_not]

theorem clearPoint_getLsbD (p : Byte) (i : Nat) : (clearPoint p).getLsbD i = (p.getLsbD i && decide (i < 7)) := by
  have hmask : (0x7F : Byte).getLsbD i = decide (i < 7) := Nat.testBit_two_pow_sub_one 7 i
  rw [clearPoint, BitVec.getLsbD_and, hmask]

/-- Settles O12: the port is asked without the point. -/
theorem encodeAnswersComplement : Obligations.EncodeAnswersComplement := by
  unfold Obligations.EncodeAnswersComplement
  intro s d hd
  rw [exec_encode, askEncoder_legal hd, encoderAnswer_legal hd]
  rfl

/-- Settles O13: bit 7 is read off the point the pattern shows. -/
theorem encodeDpAnswersPatternWithPoint : Obligations.EncodeDpAnswersPatternWithPoint := by
  unfold Obligations.EncodeDpAnswersPatternWithPoint
  intro s e d hd
  obtain ⟨-, hpoint⟩ := encoderAnswer_shows hd e s
  refine ⟨encoderAnswer d e s, ?_, encoderAnswer_legal hd e s, getLsbD_seven_of_pointLit hpoint⟩
  rw [exec_encodeDp, askEncoder_legal hd]

/-- Settles O14: neither operation finds the digit in the table. -/
theorem encodeOutsideTableRunsOn : Obligations.EncodeOutsideTableRunsOn := by
  unfold Obligations.EncodeOutsideTableRunsOn
  intro s e d hd
  rw [exec_encode, exec_encodeDp, askEncoder_illegal hd, askEncoder_illegal hd]
  exact ⟨rfl, rfl⟩

/-- Settles O15: the mask 0x7F keeps exactly the bits below 7. -/
theorem applyDpClearsBitSeven : Obligations.ApplyDpClearsBitSeven := by
  unfold Obligations.ApplyDpClearsBitSeven
  intro s p
  refine ⟨clearPoint p, exec_applyDp p s, rfl, ?_, fun i hi => ?_⟩
  · rw [clearPoint_getLsbD]
    exact Bool.and_false _
  · rw [clearPoint_getLsbD, decide_eq_true hi, Bool.and_true]

/-- Settles O16: a pattern shows its digit and its point, so the inverse maps tell any two apart, and 0x00 shows 8 with its
point. -/
theorem segmentPatternsAreDistinct : Obligations.SegmentPatternsAreDistinct := by
  unfold Obligations.SegmentPatternsAreDistinct
  intro s d d' e e' t t' hd hd' hx hx'
  obtain rfl := Host.Outcome.next.inj hx
  obtain rfl := Host.Outcome.next.inj hx'
  change (e = false → (encoderAnswer d e s).getLsbD 7 = true) ∧
    (encoderAnswer d e s = encoderAnswer d' e' s → d = d' ∧ e = e') ∧ (encoderAnswer d e s = 0x00 ↔ d = 8 ∧ e = true)
  obtain ⟨hdigit, hpoint⟩ := encoderAnswer_shows hd e s
  obtain ⟨hdigit', hpoint'⟩ := encoderAnswer_shows hd' e' s
  refine ⟨?_, fun heq => ?_, fun hzero => ?_, ?_⟩
  · rintro rfl
    exact getLsbD_seven_of_pointLit hpoint
  · rw [← heq, hdigit] at hdigit'
    rw [← heq, hpoint] at hpoint'
    exact ⟨Option.some.inj hdigit', hpoint'⟩
  · have hshown : shownDigit 0x00 = some 8 := by decide
    rw [hzero, hshown] at hdigit
    rw [hzero] at hpoint
    exact ⟨(Option.some.inj hdigit).symm, hpoint.symm⟩
  · rintro ⟨rfl, rfl⟩
    rw [encoderAnswer_legal hd]
    decide

/-- A SEG row is the table's pattern with bit 7 as its operand says (R92, log 15). -/
theorem readSegment_eq {d : Digit} {dark : Byte} (h : d.toNat ≤ 9) (hdark : ~~~(Config.segCC.getD d.toNat 0) = dark)
    (p : Bool) (s : State) : readSegment d p s = { s with result := if p then dark else dark &&& 0x7F } := by
  rw [readSegment, drawsAfterEncode_legal h, encoderAnswer_legal h, hdark]
  cases p <;> rfl

/-- Settles O17: each row reads its own entry of the table. -/
theorem segmentRowsAnswerTheirWord : Obligations.SegmentRowsAnswerTheirWord := by
  unfold Obligations.SegmentRowsAnswerTheirWord
  intro s p
  refine ⟨?_, ?_, ?_, ?_, ?_, ?_, ?_, ?_, ?_, ?_⟩ <;> exact congrArg _ (readSegment_eq (by decide) rfl p s)

/-! ### The encoder port in a cycle (R95, C10) -/

/-- The level of the encoder port's output set. -/
def withEncPattern (e : Byte) (s : State) : State := { s with encPattern := e }

/-- No row of the next-state table reads the port's output or drives it (R90, R130), whatever the operand registers hold. -/
theorem sequencerEdge_withEncPattern (p : Ports) (e : Byte) (s : State) :
    sequencerEdge p (withEncPattern e s) = withEncPattern e (sequencerEdge p s) := by
  have hph : (withEncPattern e s).phase = s.phase := rfl
  unfold sequencerEdge
  rw [hph]
  cases s.phase with
  | idle =>
    simp only [idleEdge, apply_ite (withEncPattern e)]
    rfl
  | latchLo =>
    cases hr : s.raw
    · rw [latchLoEdge_slot hr, latchLoEdge_slot (s := withEncPattern e s) hr]
      rfl
    · rw [latchLoEdge_raw hr, latchLoEdge_raw (s := withEncPattern e s) hr]
      rfl
  | dataOut => rfl
  | clkHi => rfl
  | clkLo =>
    simp only [clkLoEdge, apply_ite (withEncPattern e)]
    rfl
  | latchHi =>
    simp only [latchHiEdge, apply_ite (withEncPattern e)]
    rfl
  | dwell =>
    simp only [dwellEdge, apply_ite (withEncPattern e)]
    rfl

/-- Nor does an edge with `rst` (R43). -/
theorem clockEdge_withEncPattern (p : Ports) (e : Byte) (s : State) :
    clockEdge p (withEncPattern e s) = withEncPattern e (clockEdge p s) := by
  cases hr : p.rst
  · rw [clockEdge_run hr, clockEdge_run hr, sequencerEdge_withEncPattern]
    rfl
  · rw [clockEdge_rst hr, clockEdge_rst hr]
    rfl

theorem presentEncoder_legal {d : Digit} (h : d.toNat ≤ 9) (dp : Bool) (s : State) :
    presentEncoder d dp s = withEncPattern (encoderAnswer d dp s) s := by
  rw [presentEncoder, drawsAfterEncode_legal h]
  rfl

theorem presentEncoder_illegal {d : Digit} (h : 9 < d.toNat) (dp : Bool) (s : State) :
    presentEncoder d dp s = withPort (Config.freeByte s.draws) (s.draws + 1) s := by
  rw [presentEncoder_withPort, encoderAnswer_illegal h, drawsAfterEncode_illegal h]

/-- Settles O42: presenting an operand sets the port's fields alone, and the edge goes on beside them; with `rst` the four free
registers draw after the encoder. -/
theorem encoderPortDisturbsNothing : Obligations.EncoderPortDisturbsNothing := by
  unfold Obligations.EncoderPortDisturbsNothing
  intro p s
  refine ⟨fun hd => ?_, fun hd hrst hpass => ?_, fun hd hrst => ?_⟩
  · rw [cycle, presentEncoder_legal hd, clockEdge_withEncPattern, encoderAnswer_legal hd]
    rfl
  · rw [cycle, presentEncoder_illegal hd, clockEdge_withPort hrst hpass]
    rfl
  · rw [cycle, presentEncoder_illegal hd, clockEdge_rst hrst, clockEdge_rst hrst]
    rfl

end Sys2Proof.Machine

namespace Sys2Proof.Machine

/-! The driver (spec/41_shift_register_driver.md): what a pin write, SHIFT_BIT, SHIFT_BYTE and SEND do (R100 to R112), and that
every step keeps the lines in agreement with the sequencer and the trace a sequence of whole frames (R56, R63, R103). -/

open Sys2Proof.Safety

/-! ### Lines and sequencer (R56, R103, R124, R187) -/

/-- The LATCH_LO row, whether the frame is a bare SEND's or a slot's (R130). -/
theorem clockEdge_latchLo {p : Ports} (h : p.rst = false) {s : State} (hp : s.phase = .latchLo) :
    clockEdge p s =
      { pinWrite .latch false (if s.raw then s else loadSlot s) with bitIdx := 15, phase := .dataOut, done := false } := by
  rw [clockEdge_run h, sequencerEdge, hp]
  rfl

/-- An edge without `rst` in an idle block moves no line, logs nothing and leaves the block at rest or about to begin a frame
(R127, R130). -/
theorem clockEdge_idle_lines {p : Ports} (h : p.rst = false) {s : State} (hp : s.phase = .idle) :
    (clockEdge p s).clock = s.clock ∧ (clockEdge p s).log = s.log ∧
      ((clockEdge p s).phase = .idle ∨ (clockEdge p s).phase = .latchLo) := by
  rw [clockEdge_run h, sequencerEdge, hp]
  simp only [idleEdge]
  split
  · exact ⟨rfl, rfl, .inr rfl⟩
  · split
    · exact ⟨rfl, rfl, .inr rfl⟩
    · exact ⟨rfl, rfl, .inl hp⟩

/-- Outside a frame and its dwell the clock at rest is all there is to agree (R103). -/
theorem lineDiscipline_of_rest {s : State} (hc : s.clock = false) (hp : s.phase = .idle ∨ s.phase = .latchLo) :
    LineDiscipline s := by
  rcases hp with hp | hp <;> simp [LineDiscipline, hc, hp]

/-- The clock is at rest in every phase but CLK_LO (R103). -/
theorem clock_rest_of_lineDiscipline {s : State} (hl : LineDiscipline s) (hp : s.phase ≠ .clkLo) : s.clock = false :=
  Bool.eq_false_iff.mpr fun hc => hp (hl.1 hc)

theorem clockEdge_lineDiscipline (p : Ports) {s : State} (hl : LineDiscipline s) : LineDiscipline (clockEdge p s) := by
  cases hr : p.rst with
  | true =>
    rw [clockEdge_rst hr]
    exact lineDiscipline_of_rest rfl (.inl rfl)
  | false =>
    have hrest := clock_rest_of_lineDiscipline hl
    obtain ⟨-, hlow, hhigh⟩ := hl
    cases hp : s.phase with
    | idle =>
      obtain ⟨hc, -, hphase⟩ := clockEdge_idle_lines hr hp
      exact lineDiscipline_of_rest (hc.trans (hrest (by simp [hp]))) hphase
    | latchLo =>
      have hclock : (if s.raw then s else loadSlot s).clock = false := by
        split <;> exact hrest (by simp [hp])
      rw [clockEdge_latchLo hr hp]
      simp [LineDiscipline, hclock]
    | dataOut =>
      rw [clockEdge_data hr hp]
      simp [LineDiscipline, hrest (by simp [hp]), hlow (by simp [hp])]
    | clkHi =>
      rw [clockEdge_clkHi hr hp]
      simp [LineDiscipline, hlow (by simp [hp])]
    | clkLo =>
      by_cases hb : s.bitIdx = 0
      · rw [clockEdge_clkLo_last hr hp hb]
        simp [LineDiscipline, hlow (by simp [hp])]
      · rw [clockEdge_clkLo_more hr hp hb]
        simp [LineDiscipline, hlow (by simp [hp])]
    | latchHi =>
      cases hraw : s.raw with
      | true =>
        rw [clockEdge_latchHi_raw hr hp hraw]
        exact lineDiscipline_of_rest (hrest (by simp [hp])) (.inl rfl)
      | false =>
        rw [clockEdge_latchHi_slot hr hp hraw]
        simp [LineDiscipline, hrest (by simp [hp])]
    | dwell =>
      have hc := hrest (by simp [hp])
      by_cases h1 : s.dwellCnt = 1
      · by_cases h3 : s.digitIdx = 3
        · rw [clockEdge_dwell_end hr hp h1 h3]
          exact lineDiscipline_of_rest hc (.inl rfl)
        · rw [clockEdge_dwell_nextSlot hr hp h1 h3]
          exact lineDiscipline_of_rest hc (.inr rfl)
      · rw [clockEdge_dwell_hold hr hp h1]
        simp [LineDiscipline, hp, hc, hhigh hp]

theorem lineDiscipline_stepInvariant : StepInvariant LineDiscipline where
  edge p _ hs := clockEdge_lineDiscipline p hs
  decompose _ _ _ hs := hs
  own _ _ _ _ _ _ hs := hs
  advance _ hs := hs
  clear _ hs := hs
  wait _ _ hs := hs

/-! ### The trace as whole frames (R56, R63) -/

/-- One more event keeps the trace whole frames when it takes the scan from where the sequencer stood to where it stands. -/
theorem traceIsFrames_of_event {s t : State} {e : Event} (hs : TraceIsFrames s) (hlog : t.log = s.log ++ [e])
    (hnext : (frameScanOf s).next e = some (frameScanOf t)) : TraceIsFrames t := by
  rw [TraceIsFrames, hlog, scanFrames_append, hs]
  exact scanFrames_cons hnext []

/-- No event keeps it when the sequencer stands where it stood. -/
theorem traceIsFrames_of_same {s t : State} (hs : TraceIsFrames s) (hlog : t.log = s.log)
    (hscan : frameScanOf t = frameScanOf s) : TraceIsFrames t := by
  rw [TraceIsFrames, hlog, hscan]
  exact hs

/-- A wait is no write of a line (R12). -/
theorem frameScan_next_wait (f : FrameScan) (ms : Nat) : f.next (.wait ms) = some f := by
  cases f <;> rfl

theorem frameScanOf_outside {s : State} (hp : s.phase = .idle ∨ s.phase = .latchLo) : frameScanOf s = .outside := by
  rcases hp with hp | hp <;> rw [frameScanOf, hp]

theorem bitIdx_pos {s : State} (h : s.bitIdx ≠ 0) : 0 < s.bitIdx.toNat :=
  Nat.pos_of_ne_zero fun h0 => h (BitVec.eq_of_toNat_eq h0)

theorem clockEdge_traceIsFrames (p : Ports) {s : State} (hs : TraceIsFrames s) : TraceIsFrames (clockEdge p s) := by
  cases hr : p.rst with
  | true =>
    rw [clockEdge_rst hr]
    rfl
  | false =>
    have hbit := s.bitIdx.isLt
    cases hp : s.phase with
    | idle =>
      obtain ⟨-, hlog, hphase⟩ := clockEdge_idle_lines hr hp
      exact traceIsFrames_of_same hs hlog ((frameScanOf_outside hphase).trans (frameScanOf_outside (.inl hp)).symm)
    | latchLo =>
      have hlog : (if s.raw then s else loadSlot s).log = s.log := by split <;> rfl
      rw [clockEdge_latchLo hr hp]
      refine traceIsFrames_of_event (e := .pin .latch false) hs (by simp [hlog]) ?_
      rw [frameScanOf_outside (.inr hp)]
      rfl
    | dataOut =>
      rw [clockEdge_data hr hp]
      exact traceIsFrames_of_event hs rfl (by simp [frameScanOf, hp, FrameScan.next])
    | clkHi =>
      have hpulse : 15 - s.bitIdx.toNat + 1 = 16 - s.bitIdx.toNat := by omega
      have hroom : 15 - s.bitIdx.toNat < 16 := by omega
      rw [clockEdge_clkHi hr hp]
      exact traceIsFrames_of_event hs rfl (by simp [frameScanOf, hp, FrameScan.next, hpulse, hroom])
    | clkLo =>
      by_cases hb : s.bitIdx = 0
      · rw [clockEdge_clkLo_last hr hp hb]
        exact traceIsFrames_of_event hs rfl (by simp [frameScanOf, hp, hb, FrameScan.next])
      · have hnext : 16 - s.bitIdx.toNat = 15 - (s.bitIdx - 1).toNat := by
          have hpos := bitIdx_pos hb
          rw [bitIdx_pred hb]
          omega
        rw [clockEdge_clkLo_more hr hp hb]
        exact traceIsFrames_of_event hs rfl (by simp [frameScanOf, hp, hnext, FrameScan.next])
    | latchHi =>
      cases hraw : s.raw with
      | true =>
        rw [clockEdge_latchHi_raw hr hp hraw]
        exact traceIsFrames_of_event hs rfl (by simp [frameScanOf, hp, FrameScan.next])
      | false =>
        rw [clockEdge_latchHi_slot hr hp hraw]
        exact traceIsFrames_of_event hs rfl (by simp [frameScanOf, hp, FrameScan.next])
    | dwell =>
      by_cases h1 : s.dwellCnt = 1
      · by_cases h3 : s.digitIdx = 3
        · rw [clockEdge_dwell_end hr hp h1 h3]
          exact traceIsFrames_of_event hs rfl (by simp [frameScanOf, hp, frameScan_next_wait])
        · rw [clockEdge_dwell_nextSlot hr hp h1 h3]
          exact traceIsFrames_of_event hs rfl (by simp [frameScanOf, hp, frameScan_next_wait])
      · rw [clockEdge_dwell_hold hr hp h1]
        exact traceIsFrames_of_same hs rfl rfl

theorem traceIsFrames_stepInvariant : StepInvariant TraceIsFrames where
  edge p _ hs := clockEdge_traceIsFrames p hs
  decompose _ _ _ hs := hs
  own _ _ _ _ _ _ hs := hs
  advance _ hs := hs
  clear _ hs := hs
  wait ms s hs := traceIsFrames_of_event hs rfl (frameScan_next_wait (frameScanOf s) ms)

/-- Settles O56: each row of the sequencer writes at most the one line the frame's position allows, and `rst` starts lines,
sequencer and trace afresh together. -/
theorem stepKeepsLineDiscipline : Obligations.StepKeepsLineDiscipline := by
  unfold Obligations.StepKeepsLineDiscipline
  intro s t hx
  exact ⟨fun hl => lineDiscipline_stepInvariant.step_keeps hl hx,
    fun hf => traceIsFrames_stepInvariant.step_keeps hf hx⟩

/-! ### One pin write, one bit, one byte (R100 to R102, R109, R110) -/

/-- Settles O39: the receiver's two stages react each to its own line. -/
theorem pinWriteDrivesTheReceiver : Obligations.PinWriteDrivesTheReceiver := by
  unfold Obligations.PinWriteDrivesTheReceiver
  intro s b
  refine ⟨rfl, ?_, ?_⟩ <;> simp [pinWrite, shiftStage, outputStage, and_comm]

/-- SHIFT_BIT from a clock at either level: from a high one its pulse has no rising edge (R101, R109). -/
theorem shiftOutBit_eq_of_any_clock (b : Bool) (s : State) :
    shiftOutBit b s =
      { s with
        data := b
        clock := false
        sr := if s.clock = false then takeIn s.sr b else s.sr
        log := s.log ++ bitEvents b } := by
  cases hc : s.clock with
  | false => exact shiftOutBit_eq b hc
  | true => simp [shiftOutBit, pinWrite, shiftStage, outputStage, bitEvents, hc]

/-- Settles O20: the step is three pin writes and the advance of the SEND in progress. -/
theorem shiftBitTakesOneBitIn : Obligations.ShiftBitTakesOneBitIn := by
  unfold Obligations.ShiftBitTakesOneBitIn
  intro s b
  rw [exec, execShiftBit]
  congr 1
  refine if_congr Iff.rfl ?_ rfl
  rw [sendBit, shiftOutBit_eq_of_any_clock]
  by_cases hb : s.bitIdx = 0
  · simp [hb, takeIn, bitEvents]
  · simp only [if_neg hb]
    rfl

theorem byteEvents_length (w : Byte) : (byteEvents w).length = 24 := by
  rw [← bitsEvents_byte, bitsEvents_length]

theorem execShiftByte_notDue {w : Byte} {s : State} (h : ¬ ShiftByteDue w s) : execShiftByte w s = .next s := by
  rw [execShiftByte, if_neg h]

/-- Eight steps from the head of a byte with the clock at rest (R102, R109). -/
theorem sendBits_byte {w : Byte} {s : State} (hc : s.clock = false) (hb : s.bitIdx = 15 ∨ s.bitIdx = 7) :
    sendBits w 8 s =
      { s with
        data := w.getLsbD 0
        clock := false
        bitIdx := if s.bitIdx = 15 then 7 else 0
        phase := if s.bitIdx = 15 then .dataOut else .latchHi
        done := false
        sr := s.sr.extractLsb' 0 8 ++ w
        log := s.log ++ byteEvents w } := by
  rcases hb with hb | hb
  · rw [sendBits_eq w 7 hc (by rw [hb]; decide), takeInBits_byte, bitsEvents_byte, hb]
    rfl
  · rw [sendBits_eq w 7 hc (by rw [hb]; decide), takeInBits_byte, bitsEvents_byte, hb]
    rfl

/-- Settles O21: a SHIFT_BYTE that is due is eight steps of the SEND in progress. -/
theorem shiftByteTakesEightBitsIn : Obligations.ShiftByteTakesEightBitsIn := by
  unfold Obligations.ShiftByteTakesEightBitsIn
  refine ⟨fun s w hp hc hdue => ⟨?_, byteEvents_length w⟩, fun s w hdue => execShiftByte_notDue hdue⟩
  rw [exec, execShiftByte_due ⟨hp, hdue⟩, sendBits_byte hc (hdue.imp And.left And.left)]

/-! ### SEND (R104, R105, R112) -/

theorem exec_send (seg sel : Byte) (s : State) : exec (.send seg sel) s = .next (requestSend seg sel s) := rfl

/-- Settles O22: an accepted SEND shifts all sixteen bits of its frame through the receiver. -/
theorem sendPutsTheFrameInTheReceiver : Obligations.SendPutsTheFrameInTheReceiver := by
  unfold Obligations.SendPutsTheFrameInTheReceiver
  intro s seg sel hp hc
  rw [exec_send, requestSend_eq seg sel hp hc]

/-- The events of a word's bits as a list over their places, highest first (R104). -/
theorem bitsEvents_eq_flatMap (f : Nat → Bool) (n : Nat) :
    bitsEvents f n = (List.range n).flatMap fun k => bitEvents (f (n - 1 - k)) := by
  induction n with
  | zero => rfl
  | succ n ih =>
    have hplace : ∀ k, n + 1 - 1 - (k + 1) = n - 1 - k := fun k => by omega
    rw [bitsEvents, ih, List.range_succ_eq_map, List.flatMap_cons, List.flatMap_map]
    simp only [Nat.succ_eq_add_one, hplace]
    rfl

section
variable {w : Wires} (hc : w.clock = false) (f : Nat → Bool) (n : Nat)
include hc

/-- The rising clock edges of a frame, `latch` low at each (R105 (a) to (c)). -/
theorem clockRises_frame :
    clockRises w (.pin .latch false :: (bitsEvents f n ++ [.pin .latch true])) =
      (List.range n).map fun k => (f (n - 1 - k), false) := by
  have hrises := clockRises_bits (w := observe w (.pin .latch false)) f n hc [.pin .latch true]
  simpa [clockRises, observe] using hrises

/-- The falling ones (R105 (b)). -/
theorem clockFalls_frame :
    clockFalls w (.pin .latch false :: (bitsEvents f n ++ [.pin .latch true])) = List.replicate n false := by
  have hfalls := clockFalls_bits (w := observe w (.pin .latch false)) f n hc [.pin .latch true]
  simpa [clockFalls, observe] using hfalls

/-- One commit, of what has been shifted in (R105 (d), R110). -/
theorem commits_frame :
    commits w (.pin .latch false :: (bitsEvents f n ++ [.pin .latch true])) = [takeInBits f n w.sr] := by
  have hcommits := commits_bits (w := observe w (.pin .latch false)) f n hc [.pin .latch true]
  simpa [commits, observe, wiresAfter] using hcommits

end

/-- Settles O23: between the two writes of `latch` stand the frame's sixteen bits, which no write of `latch` interrupts. -/
theorem sendKeepsTheProtocol : Obligations.SendKeepsTheProtocol := by
  unfold Obligations.SendKeepsTheProtocol
  intro s seg sel hp hc
  refine ⟨requestSend seg sel s, bitsEvents (seg ++ sel : Frame).getLsbD 16, exec_send seg sel s, ?_,
    bitsEvents_eq_flatMap _ 16, clockRises_frame hc _ 16, clockFalls_frame hc _ 16, ?_, ?_⟩
  · rw [requestSend_eq seg sel hp hc, sendEvents_bits]
  · rw [commits_frame hc, takeInBits_frame]
  · rw [requestSend_eq seg sel hp hc]
    exact ⟨rfl, rfl, rfl⟩

/-- Settles O34: the mask has the one bit of its position, the pattern drives the segments from below. -/
theorem slotLightsOnePosition : Obligations.SlotLightsOnePosition := by
  unfold Obligations.SlotLightsOnePosition
  exact lit_passFrame

end Sys2Proof.Machine

namespace Sys2Proof.Machine

/-! The multiplexer (spec/42_display_multiplexer.md): what DECOMPOSE and RENDER do (R121 to R125), the frames a pass commits
(R122), the rows of the next-state table (R130), and what meets a busy block (R128). -/

open Sys2Proof.Safety

theorem exec_decompose (x : BitVec 3) (v : Value) (s : State) :
    exec (.decompose x v) s = .next (whenIdle (decomposeValue v) s) := rfl

theorem exec_render (en : Bool) (pos : Position) (v : Value) (s : State) :
    exec (.render en pos v) s = .next (requestRender en pos v s) := rfl

/-! ### The digits of a value (R77, R121) -/

theorem digitsOf_eq (v : Value) :
    digitsOf v =
      ⟨BitVec.ofNat 4 (v.toNat / 1000 % 10), BitVec.ofNat 4 (v.toNat / 100 % 10), BitVec.ofNat 4 (v.toNat / 10 % 10),
        BitVec.ofNat 4 (v.toNat % 10)⟩ := by
  simp only [digitsOf, decimalDigit, Nat.div_one]

/-- The digit of index `i` has the weight `10 ^ (3 - i)` (R75, R121). -/
theorem digitAt_digitsOf_toNat (v : Value) (i : Position) :
    (digitAt (digitsOf v) i).toNat = v.toNat / 10 ^ (3 - i.toNat) % 10 := by
  match i with
  | 0 => exact decimalDigit_toNat v 1000
  | 1 => exact decimalDigit_toNat v 100
  | 2 => exact decimalDigit_toNat v 10
  | 3 => exact decimalDigit_toNat v 1

/-- Settles O27: the acceptance of a DECOMPOSE in an idle block, with the digits written out. -/
theorem decomposeWritesDigits : Obligations.DecomposeWritesDigits := by
  unfold Obligations.DecomposeWritesDigits
  intro s x v hp
  rw [exec_decompose, whenIdle_idle hp, decomposeValue, digitsOf_eq]

/-- Settles O28: each digit is a remainder by 10, and the four quotients telescope. -/
theorem digitsRecomposeTheValue : Obligations.DigitsRecomposeTheValue := by
  unfold Obligations.DigitsRecomposeTheValue
  intro s t x v hp hx
  have hdigits : t.digits = digitsOf v := by
    obtain rfl := Host.Outcome.next.inj hx
    rw [whenIdle_idle hp]
    rfl
  rw [hdigits]
  simp only [digitsOf, decimalDigit_toNat]
  omega

/-! ### One pass (R122 to R125) -/

/-- Settles O29: the four slots, each with the frame of its digit. -/
theorem renderMakesOnePass : Obligations.RenderMakesOnePass := by
  unfold Obligations.RenderMakesOnePass
  intro s en pos v hp hc
  have hevents : passEvents en pos v =
      slotEvents en pos v 0 ++ slotEvents en pos v 1 ++ slotEvents en pos v 2 ++ slotEvents en pos v 3 := by
    simp [passEvents]
  rw [exec_render, requestRender_eq en pos v hp hc, digitsOf_eq, hevents]

/-! ### The counts of a pass (R125) -/

theorem bitsEvents_count_clock (f : Nat → Bool) (n : Nat) (b : Bool) : (bitsEvents f n).count (.pin .clock b) = n := by
  induction n with
  | zero => rfl
  | succ n ih =>
    have hpulse : (bitEvents (f n)).count (.pin .clock b) = 1 := by cases b <;> simp [bitEvents]
    rw [bitsEvents, List.count_append, ih, hpulse, Nat.add_comm]

theorem bitsEvents_count_latch (f : Nat → Bool) (n : Nat) (b : Bool) : (bitsEvents f n).count (.pin .latch b) = 0 :=
  List.count_eq_zero.mpr (latch_notMem_bitsEvents f n b)

theorem wait_notMem_bitsEvents (f : Nat → Bool) (n ms : Nat) : .wait ms ∉ bitsEvents f n := by
  induction n with
  | zero => exact List.not_mem_nil
  | succ n ih => simp [bitsEvents, bitEvents, ih]

theorem bitsEvents_count_wait (f : Nat → Bool) (n ms : Nat) : (bitsEvents f n).count (.wait ms) = 0 :=
  List.count_eq_zero.mpr (wait_notMem_bitsEvents f n ms)

theorem bitsEvents_pins_length (f : Nat → Bool) (n : Nat) :
    ((bitsEvents f n).filterMap Event.pinEvent).length = 3 * n := by
  induction n with
  | zero => rfl
  | succ n ih =>
    rw [bitsEvents, List.filterMap_append, List.length_append, ih]
    simp [bitEvents, Event.pinEvent]
    omega

/-- A slot in the order of its events: a frame, then the dwell (R104, R124). -/
theorem slotEvents_bits (en : Bool) (pos : Position) (v : Value) (i : Position) :
    slotEvents en pos v i =
      .pin .latch false :: (bitsEvents (passFrame en pos v i).getLsbD 16 ++ [.pin .latch true]) ++ [.wait 2] := by
  rw [slotEvents, sendEvents_bits]
  rfl

section
variable (en : Bool) (pos : Position) (v : Value)

theorem slotEvents_count_clock (i : Position) (b : Bool) : (slotEvents en pos v i).count (.pin .clock b) = 16 := by
  rw [slotEvents_bits]
  simp [bitsEvents_count_clock]

theorem slotEvents_count_latch (i : Position) (b : Bool) : (slotEvents en pos v i).count (.pin .latch b) = 1 := by
  rw [slotEvents_bits]
  cases b <;> simp [bitsEvents_count_latch]

theorem slotEvents_count_dwell (i : Position) : (slotEvents en pos v i).count (.wait 2) = 1 := by
  rw [slotEvents_bits]
  simp [bitsEvents_count_wait]

theorem slotEvents_pins_length (i : Position) : ((slotEvents en pos v i).filterMap Event.pinEvent).length = 50 := by
  have hwait : [Event.wait 2].filterMap Event.pinEvent = [] := rfl
  rw [slotEvents_bits, List.filterMap_append, hwait]
  simp [bitsEvents_pins_length, Event.pinEvent]

/-- An event is in a pass four times as often as in each of its slots (R123). -/
theorem passEvents_count {e : Event} {n : Nat} (h : ∀ i, (slotEvents en pos v i).count e = n) :
    (passEvents en pos v).count e = 4 * n := by
  simp [passEvents, h]
  omega

theorem passEvents_pins_length : ((passEvents en pos v).filterMap Event.pinEvent).length = 200 := by
  simp [passEvents, slotEvents_pins_length]

end

/-! ### What an observer sees of a pass (R109, R110, R125) -/

theorem clockRises_append (w : Wires) (es es' : List Event) :
    clockRises w (es ++ es') = clockRises w es ++ clockRises (replay w es) es' := by
  induction es generalizing w with
  | nil => rfl
  | cons e es ih =>
    rw [List.cons_append, clockRises, clockRises, ih]
    split <;> rfl

theorem commits_append (w : Wires) (es es' : List Event) :
    commits w (es ++ es') = commits w es ++ commits (replay w es) es' := by
  induction es generalizing w with
  | nil => rfl
  | cons e es ih =>
    rw [List.cons_append, commits, commits, ih]
    split <;> rfl

section
variable (en : Bool) (pos : Position) (v : Value) {w : Wires} (hc : w.clock = false)
include hc

/-- A slot leaves the clock at rest (R103). -/
theorem replay_slotEvents_clock (i : Position) : (replay w (slotEvents en pos v i)).clock = false := by
  have hbits := replay_bits (w := observe w (.pin .latch false)) (passFrame en pos v i).getLsbD 16 hc
    [.pin .latch true, .wait 2]
  have hslot : replay w (slotEvents en pos v i) =
      replay (wiresAfter (observe w (.pin .latch false)) (passFrame en pos v i).getLsbD 16) [.pin .latch true, .wait 2] := by
    rw [slotEvents_bits, ← hbits]
    simp [replay]
  rw [hslot]
  rfl

theorem clockRises_slotEvents_length (i : Position) : (clockRises w (slotEvents en pos v i)).length = 16 := by
  have hwait : ∀ u : Wires, clockRises u [.wait 2] = [] := fun u => by simp [clockRises]
  rw [slotEvents_bits, clockRises_append, hwait, clockRises_frame hc]
  simp

/-- A slot commits the frame of its digit (R112, R124). -/
theorem commits_slotEvents (i : Position) : commits w (slotEvents en pos v i) = [passFrame en pos v i] := by
  have hwait : ∀ u : Wires, commits u [.wait 2] = [] := fun u => by simp [commits]
  rw [slotEvents_bits, commits_append, hwait, commits_frame hc, takeInBits_frame, List.append_nil]

theorem clockRises_slots_length (is : List Position) :
    (clockRises w (is.flatMap (slotEvents en pos v))).length = 16 * is.length := by
  induction is generalizing w with
  | nil => rfl
  | cons i is ih =>
    rw [List.flatMap_cons, clockRises_append, List.length_append, clockRises_slotEvents_length en pos v hc,
      ih (replay_slotEvents_clock en pos v hc i), List.length_cons]
    omega

/-- Slots one after the other commit the frames of their digits in that order (R123, R125). -/
theorem commits_slots (is : List Position) :
    commits w (is.flatMap (slotEvents en pos v)) = is.map (passFrame en pos v) := by
  induction is generalizing w with
  | nil => rfl
  | cons i is ih =>
    rw [List.flatMap_cons, commits_append, commits_slotEvents en pos v hc, ih (replay_slotEvents_clock en pos v hc i)]
    rfl

theorem commits_passEvents :
    commits w (passEvents en pos v) =
      [passFrame en pos v 0, passFrame en pos v 1, passFrame en pos v 2, passFrame en pos v 3] :=
  commits_slots en pos v hc [0, 1, 2, 3]

end

/-- The low byte of a pass frame is its index's mask (R73, R122). -/
theorem passFrame_low (en : Bool) (pos : Position) (v : Value) (i : Position) :
    (passFrame en pos v i).extractLsb' 0 8 = oneHot i :=
  BitVec.extractLsb'_append_eq_right

/-- Settles O30: a pass is four slots alike in their counts, and each commits its own frame. -/
theorem renderCommitsFourFrames : Obligations.RenderCommitsFourFrames := by
  unfold Obligations.RenderCommitsFourFrames
  intro s en pos v hp hc
  obtain ⟨⟨hlog, -⟩, -⟩ := requestRender_logs en pos v hp
  have hcommits := commits_passEvents en pos v (w := wiresOf s) hc
  refine ⟨_, passEvents en pos v, exec_render en pos v s, hlog, passEvents_pins_length en pos v,
    passEvents_count en pos v (slotEvents_count_dwell en pos v),
    passEvents_count en pos v (slotEvents_count_clock en pos v · true),
    passEvents_count en pos v (slotEvents_count_clock en pos v · false),
    clockRises_slots_length en pos v hc [0, 1, 2, 3],
    passEvents_count en pos v (slotEvents_count_latch en pos v · false),
    passEvents_count en pos v (slotEvents_count_latch en pos v · true), hcommits, ?_⟩
  rw [hcommits]
  simp only [List.map_cons, List.map_nil, passFrame_low]
  rfl

/-! ### What a pass frame drives (R51, R73, R122) -/

/-- A pass pattern is the encoder's answer for its digit (R78, R122). -/
theorem passPattern_eq_encoderAnswer (en : Bool) (pos : Position) (v : Value) (i : Position) (s : State) :
    passPattern en pos v i = encoderAnswer (digitAt (digitsOf v) i) (pointAt en pos i) s := by
  rw [encoderAnswer_legal (digitAt_digitsOf_le v i)]
  simp [passPattern, pointAt]

/-- The point of a pass pattern is lit where the policy asks for it (R122). -/
theorem passPattern_point (en : Bool) (pos : Position) (v : Value) (i : Position) :
    (passPattern en pos v i).getLsbD 7 = !(en && decide (i = pos)) := by
  obtain ⟨-, hpoint⟩ := encoderAnswer_shows (digitAt_digitsOf_le v i) (pointAt en pos i) State.reset
  rw [passPattern_eq_encoderAnswer en pos v i State.reset]
  exact getLsbD_seven_of_pointLit hpoint

/-- The high byte of a pass frame is its pattern (R73). -/
theorem passFrame_high (en : Bool) (pos : Position) (v : Value) (i : Position) (j : Nat) :
    (passFrame en pos v i).getLsbD (8 + j) = (passPattern en pos v i).getLsbD j := by
  rw [passFrame, frame_getLsbD, if_neg (by omega), Nat.add_sub_cancel_left]

/-- Below the point it drives the segments of the value's digit (R92, R121, R122). -/
theorem passPattern_segments (en : Bool) (pos : Position) (v : Value) (i : Position) {j : Nat} (hj : j < 7) :
    (passPattern en pos v i).getLsbD j =
      (~~~(Config.segCC.getD (v.toNat / 10 ^ (3 - i.toNat) % 10) 0)).getLsbD j := by
  have hj8 : j < 8 := by omega
  rw [passPattern_getLsbD en pos v i hj, digitAt_digitsOf_toNat, BitVec.getLsbD_not, decide_eq_true hj8, Bool.true_and]

/-- The frame drives the point as the policy asks, the digit's segments and its position's select (R51, R73, R122). -/
theorem passFrame_drives (en : Bool) (pos : Position) (v : Value) (i : Position) :
    (passFrame en pos v i).getLsbD 15 = !(en && decide (i = pos)) ∧
    (∀ j, j < 7 → (passFrame en pos v i).getLsbD (8 + j) =
      (~~~(Config.segCC.getD (v.toNat / 10 ^ (3 - i.toNat) % 10) 0)).getLsbD j) ∧
    (passFrame en pos v i).extractLsb' 0 8 = oneHot i := by
  refine ⟨?_, fun j hj => ?_, passFrame_low en pos v i⟩
  · exact (passFrame_high en pos v i 7).trans (passPattern_point en pos v i)
  · exact (passFrame_high en pos v i j).trans (passPattern_segments en pos v i hj)

/-- Settles O31: the frames committed and the frame a slot loads are the pass frames. -/
theorem passLightsOnePoint : Obligations.PassLightsOnePoint := by
  unfold Obligations.PassLightsOnePoint
  refine ⟨fun s en pos v hp hc => ?_, fun s v hd => ?_⟩
  · obtain ⟨⟨hlog, -⟩, -⟩ := requestRender_logs en pos v hp
    exact ⟨_, passEvents en pos v, passFrame en pos v, exec_render en pos v s, hlog,
      commits_passEvents en pos v (w := wiresOf s) hc, passFrame_drives en pos v⟩
  · have hframe : (loadSlot s).frame = passFrame s.dpEnR s.dpPosR v s.digitIdx := slotFrame_pass _ _ v hd rfl rfl
    rw [hframe]
    exact passFrame_drives s.dpEnR s.dpPosR v s.digitIdx

/-! ### Steps and requests (R128, R145, R150) -/

theorem step_clk {s : State} {p : Ports} {rest : List Action} (h : s.schedule = .clk p :: rest) :
    step s = .next (cycle p { s with schedule := rest }) := by
  rw [step, h]

theorem step_unscheduled {s : State} (h : s.schedule = []) : step s = runUnscheduled s := by
  rw [step, h]

/-- Settles O8: the three ways of a step that takes no request. -/
theorem stepClocksOrIterates : Obligations.StepClocksOrIterates := by
  unfold Obligations.StepClocksOrIterates
  refine ⟨fun s p rest => step_clk, fun s hs hp => ?_, fun s hs hp => ?_⟩
  · rw [step_unscheduled hs, runUnscheduled, if_pos hp]
  · rw [step_unscheduled hs, runUnscheduled, if_neg hp]

theorem execShiftBit_notDue {b : Bool} {s : State} (h : ¬ ShiftBitDue b s) : execShiftBit b s = .next s := by
  rw [execShiftBit, if_neg h]

/-- Settles O26: the requests run in an idle block only, and the driver's two steps where they are due. -/
theorem requestsAreIgnoredWhileBusy : Obligations.RequestsAreIgnoredWhileBusy := by
  unfold Obligations.RequestsAreIgnoredWhileBusy
  intro s hp
  refine ⟨fun seg sel => ?_, fun en pos v => ?_, fun x v => ?_, fun b => execShiftBit_notDue, fun w => execShiftByte_notDue⟩
  · rw [exec_send, requestSend_busy seg sel hp]
  · rw [exec_render, requestRender_busy en pos v hp]
  · rw [exec_decompose, whenIdle_busy hp]

/-! ### The rows of the next-state table (R130) -/

/-- An edge in an idle block with no request (R130). -/
theorem clockEdge_idle_none {p : Ports} (h : p.rst = false) (hs : p.start = false) (hn : p.sndStart = false) {s : State}
    (hp : s.phase = .idle) : clockEdge p s = { s with done := false } := by
  have hrow : sequencerEdge p s = s := by
    rw [sequencerEdge, hp]
    exact idleEdge_none hs hn s
  have hdone : doneAfter s.phase s.phase = false := by
    rw [hp]
    rfl
  rw [clockEdge_run h, hrow, hdone]

/-- Settles O36: the three IDLE rows. -/
theorem idleRowsAcceptRequests : Obligations.IdleRowsAcceptRequests := by
  unfold Obligations.IdleRowsAcceptRequests
  intro p s hr hp
  refine ⟨fun hs => ?_, fun hs hn => ?_, fun hs hn => clockEdge_idle_none hr hs hn hp⟩
  · rw [clockEdge_acceptRender hr hs hp]
    rfl
  · rw [clockEdge_acceptSend hr hs hn hp]
    rfl

/-- Loading the slot of a decimal digit writes the frame register alone (R122). -/
theorem loadSlot_legal {s : State} (h : (digitAt s.digits s.digitIdx).toNat ≤ 9) :
    loadSlot s =
      { s with
        frame :=
          (if s.dpEnR = true ∧ s.digitIdx = s.dpPosR
            then ~~~(Config.segCC.getD (digitAt s.digits s.digitIdx).toNat 0) &&& 0x7F
            else ~~~(Config.segCC.getD (digitAt s.digits s.digitIdx).toNat 0)) ++ oneHot s.digitIdx } := by
  rw [loadSlot, slotFrame, encoderAnswer_legal h, drawsAfterEncode_legal h, dselRead_eq]
  simp only [pointAt, Bool.and_eq_true, decide_eq_true_eq]

/-- Settles O37: the rows of a frame one by one. -/
theorem frameRowsWriteOnePin : Obligations.FrameRowsWriteOnePin := by
  unfold Obligations.FrameRowsWriteOnePin
  intro p s hr
  refine ⟨clockEdge_latchLo_raw hr, fun hp hraw hd => ?_, clockEdge_data hr, clockEdge_clkHi hr, clockEdge_clkLo_more hr,
    clockEdge_clkLo_last hr⟩
  rw [clockEdge_latchLo hr hp, hraw, if_neg Bool.false_ne_true, loadSlot_legal hd]
  rfl

/-- Settles O38: the rows that end a frame and a dwell, one by one. -/
theorem dwellRowsEndTheSlot : Obligations.DwellRowsEndTheSlot := by
  unfold Obligations.DwellRowsEndTheSlot
  intro p s hr
  exact ⟨clockEdge_latchHi_raw hr, clockEdge_latchHi_slot hr, clockEdge_dwell_hold hr, clockEdge_dwell_nextSlot hr,
    clockEdge_dwell_end hr⟩

/-- Settles O41: only the IDLE rows read a port. -/
theorem edgesIgnorePortsWhileBusy : Obligations.EdgesIgnorePortsWhileBusy := by
  unfold Obligations.EdgesIgnorePortsWhileBusy
  intro p q s hb hp hq
  have hphase : s.phase ≠ .idle := of_decide_eq_true hb
  rw [clockEdge_run hp, clockEdge_run hq, sequencerEdge_busy hphase p q]

end Sys2Proof.Machine

namespace Sys2Proof.Machine

/-! The environment (spec/43_environment_timekeeper_modearbiter.md): ClockState as a count of ticks (R141, R153), the values of
the two modes (R147, R148), and what one iteration of the control loop does (R145, R150, R151). -/

open Sys2Proof.Safety

/-! ### Ticks (R141, R164) -/

theorem exec_tkAdvance (s : State) : exec .tkAdvance s = .next (advanceClock s) := rfl

theorem exec_tkReset (s : State) : exec .tkReset s = .next (clearClock s) := rfl

theorem execTimes_tkAdvance (n : Nat) (s : State) : execTimes .tkAdvance n s = some (runTicks n s) := by
  induction n generalizing s with
  | zero => rfl
  | succ n ih => exact ih (advanceClock s)

theorem runTicks_add (m n : Nat) (s : State) : runTicks (m + n) s = runTicks n (runTicks m s) := by
  induction m generalizing s with
  | zero => rw [Nat.zero_add, runTicks]
  | succ m ih => rw [Nat.succ_add, runTicks, runTicks, ih]

theorem runTicks_busy (n : Nat) (s : State) : (runTicks n s).busy = s.busy := by
  induction n generalizing s with
  | zero => rfl
  | succ n ih => exact ih (advanceClock s)

/-- One tick of a clock in range, as the table of R141 has it. -/
theorem advanceClock_of_inRange {s : State} (hs : ClockInRange s) :
    advanceClock s =
      { s with
        seconds := if s.seconds = 59 then 0 else s.seconds + 1
        minutes := if s.seconds = 59 then (if s.minutes = 99 then 0 else s.minutes + 1) else s.minutes } := by
  obtain ⟨-, hmin⟩ := hs
  have hseconds : (advanceClock s).seconds = if s.seconds = 59 then 0 else s.seconds + 1 := by
    rw [advanceClock_seconds]
    split_ifs <;> omega
  have hminutes : (advanceClock s).minutes =
      if s.seconds = 59 then (if s.minutes = 99 then 0 else s.minutes + 1) else s.minutes := by
    rw [advanceClock_minutes]
    split_ifs <;> omega
  rw [← hseconds, ← hminutes]
  rfl

/-- ClockState as `k` ticks from zero leave it (R153). -/
def clockAt (k : Nat) (s : State) : State := { s with seconds := k % 60, minutes := k / 60 % 100 }

theorem clockAt_inRange (k : Nat) (s : State) : ClockInRange (clockAt k s) :=
  ⟨Nat.mod_lt _ (by decide), Nat.mod_lt _ (by decide)⟩

theorem advanceClock_clockAt (k : Nat) (s : State) : advanceClock (clockAt k s) = clockAt (k + 1) s := by
  have hseconds : (k + 1) % 60 = if k % 60 = 59 then 0 else k % 60 + 1 := by
    split_ifs <;> omega
  have hminutes : (k + 1) / 60 % 100 =
      if k % 60 = 59 then (if k / 60 % 100 = 99 then 0 else k / 60 % 100 + 1) else k / 60 % 100 := by
    split_ifs <;> omega
  rw [advanceClock_of_inRange (clockAt_inRange k s), clockAt, clockAt, hseconds, hminutes]

theorem runTicks_clockAt (n k : Nat) (s : State) : runTicks n (clockAt k s) = clockAt (k + n) s := by
  induction n generalizing k with
  | zero => rfl
  | succ n ih => rw [runTicks, advanceClock_clockAt, ih, Nat.add_right_comm, Nat.add_assoc]

/-- Every clock in range is some number of ticks from zero. -/
theorem clockAt_of_inRange {s : State} (hs : ClockInRange s) : clockAt (60 * s.minutes + s.seconds) s = s := by
  obtain ⟨hsec, hmin⟩ := hs
  have hseconds : (60 * s.minutes + s.seconds) % 60 = s.seconds := by omega
  have hminutes : (60 * s.minutes + s.seconds) / 60 % 100 = s.minutes := by omega
  rw [clockAt, hseconds, hminutes]

theorem clockAt_period (k : Nat) (s : State) : clockAt (k + 6000) s = clockAt k s := by
  have hseconds : (k + 6000) % 60 = k % 60 := by omega
  have hminutes : (k + 6000) / 60 % 100 = k / 60 % 100 := by omega
  rw [clockAt, clockAt, hseconds, hminutes]

/-- ClockState is back where it was after 6000 ticks (R141). -/
theorem runTicks_period {s : State} (hs : ClockInRange s) : runTicks 6000 s = s :=
  calc runTicks 6000 s
      = runTicks 6000 (clockAt (60 * s.minutes + s.seconds) s) := by rw [clockAt_of_inRange hs]
    _ = clockAt (60 * s.minutes + s.seconds) s := by rw [runTicks_clockAt, clockAt_period]
    _ = s := clockAt_of_inRange hs

/-- Settles O45: one tick by the table, and 6000 of them by the period of the count. -/
theorem advanceCountsTheClock : Obligations.AdvanceCountsTheClock := by
  unfold Obligations.AdvanceCountsTheClock
  intro s hs
  refine ⟨advanceClock s, exec_tkAdvance s, advanceClock_of_inRange hs, advanceClock_inRange hs, ?_⟩
  rw [execTimes_tkAdvance, runTicks_period hs]

/-- Settles O46: TK_RESET is the clearing of the two counters. -/
theorem clockResetZeroes : Obligations.ClockResetZeroes := by
  unfold Obligations.ClockResetZeroes
  exact exec_tkReset

/-- Settles O47: a clock at zero is 0 ticks from zero. -/
theorem ticksFromZeroHaveClosedForm : Obligations.TicksFromZeroHaveClosedForm := by
  unfold Obligations.TicksFromZeroHaveClosedForm
  intro s n hsec hmin
  have hrange : ClockInRange s := ⟨by omega, by omega⟩
  have hzero : clockAt 0 s = s := by simpa [hsec, hmin] using clockAt_of_inRange hrange
  calc execTimes .tkAdvance n s
      = some (runTicks n (clockAt 0 s)) := by rw [execTimes_tkAdvance, hzero]
    _ = some (clockAt n s) := by rw [runTicks_clockAt, Nat.zero_add]

/-! ### The values of the two modes (R147, R148) -/

theorem timeValue_toNat {sec mins : Nat} (hsec : sec < 60) (hmin : mins < 100) :
    (timeValue sec mins).toNat = mins * 100 + sec := by
  rw [timeValue, BitVec.toNat_ofNat]
  omega

/-- Settles O52: the value does not wrap, so its decimal digits are those of the minutes and of the seconds. -/
theorem timeValueShowsMinutesAndSeconds : Obligations.TimeValueShowsMinutesAndSeconds := by
  unfold Obligations.TimeValueShowsMinutesAndSeconds
  rintro s ⟨hsec, hmin⟩
  have hvalue := timeValue_toNat hsec hmin
  refine ⟨hvalue, by omega, ?_⟩
  have hd0 : (s.minutes * 100 + s.seconds) / 1000 % 10 = s.minutes / 10 := by omega
  have hd1 : (s.minutes * 100 + s.seconds) / 100 % 10 = s.minutes % 10 := by omega
  have hd2 : (s.minutes * 100 + s.seconds) / 10 % 10 = s.seconds / 10 := by omega
  have hd3 : (s.minutes * 100 + s.seconds) % 10 = s.seconds % 10 := by omega
  rw [digitsOf_eq, hvalue, hd0, hd1, hd2, hd3]

theorem adcToMv_le (a : BitVec 16) : Config.adcToMv a ≤ 3300 := by
  unfold Config.adcToMv
  split_ifs
  · exact Nat.zero_le _
  · decide
  · exact Nat.min_le_right _ _

theorem adcToMv_zero : Config.adcToMv 0 = 0 := if_pos rfl

theorem adcToMv_normalized {a : BitVec 16} (ha : a ≠ 0) (hn : Config.normalizesTo2750 a = true) :
    Config.adcToMv a = 2750 := by
  rw [Config.adcToMv, if_neg ha, if_pos hn]

theorem voltageValue_toNat (a : BitVec 16) : (voltageValue a).toNat = Config.adcToMv a :=
  Nat.mod_eq_of_lt (Nat.lt_of_le_of_lt (adcToMv_le a) (by decide))

/-- Settles O53: the three cases of the conversion, each below 2 to the 16. -/
theorem voltageValueIsInRange : Obligations.VoltageValueIsInRange := by
  unfold Obligations.VoltageValueIsInRange
  intro a
  refine ⟨voltageValue_toNat a, adcToMv_le a, adcToMv_zero, ?_⟩
  by_cases ha : a = 0
  · exact .inl ha
  cases hn : Config.normalizesTo2750 a
  · exact .inr (.inl rfl)
  · exact .inr (.inr (adcToMv_normalized ha hn))

/-! ### One iteration of the control loop (R145, R150, R151) -/

/-- An iteration takes the oldest scripted inputs once the operation in progress is over (R150, logs 10, 29). -/
theorem exec_arbIterate_scripted {s : State} {inp : ArbInputs} {rest : List ArbInputs} (h : s.script = inp :: rest) :
    exec .arbIterate s = .next (iterateWith inp { awaitIdle s with script := rest }) := by
  obtain ⟨-, -, hwait, -⟩ := awaitIdle_environment s
  have hscript : (awaitIdle s).script = inp :: rest := hwait.trans h
  have hnext : nextInputs (awaitIdle s) = inp := by rw [nextInputs, hscript]
  have htake : takeInputs (awaitIdle s) = { awaitIdle s with script := rest } := by rw [takeInputs, hscript]
  rw [exec, execArbIterate, hnext, htake]

/-- Steps 2 to 5 of an iteration are a RENDER of the mode's value with the mode's point (R145 to R148). -/
theorem exec_render_showStep (modeButton : Bool) (sample : BitVec 16) (s : State) :
    exec (.render true (if modeButton then 1 else 0)
      (if modeButton then BitVec.ofNat 16 (s.minutes * 100 + s.seconds)
        else BitVec.ofNat 16 (Config.adcToMv sample))) s = .next (showStep modeButton sample s) := by
  cases modeButton with
  | false => rfl
  | true => rfl

/-- The wait leaves the block idle, and neither the script nor a tick makes it busy (R30, R150). -/
theorem ticks_after_awaitIdle_busy {s : State} (hd : DwellCounts s) (n : Nat) (rest : List ArbInputs) :
    (runTicks n { awaitIdle s with script := rest }).busy = false := by
  obtain ⟨-, -, hidle, -⟩ := awaitIdle_waits hd
  exact (runTicks_busy n _).trans hidle

/-- An iteration with the reset button released: all ticks before the read come together (R145, R151). -/
theorem exec_arbIterate_released {s : State} {inp : ArbInputs} {rest : List ArbInputs} (h : s.script = inp :: rest)
    (hr : inp.resetButton = true) :
    exec .arbIterate s =
      .next (runTicks inp.ticksAfterRead (showStep inp.modeButton inp.sample
        (runTicks (inp.ticksBeforeReset + inp.ticksBeforeRead) { awaitIdle s with script := rest }))) := by
  rw [exec_arbIterate_scripted h, iterateWith, hr, resetStep, if_pos rfl, runTicks_add]

/-- An iteration with the reset button pressed: the clock is cleared and the debounce waited out between the ticks (R145). -/
theorem exec_arbIterate_pressed {s : State} {inp : ArbInputs} {rest : List ArbInputs} (h : s.script = inp :: rest)
    (hr : inp.resetButton = false) :
    exec .arbIterate s =
      .next (runTicks inp.ticksAfterRead (showStep inp.modeButton inp.sample
        (runTicks inp.ticksBeforeRead (waitMs 200 (clearClock
          (runTicks inp.ticksBeforeReset { awaitIdle s with script := rest })))))) := by
  rw [exec_arbIterate_scripted h, iterateWith, hr, resetStep, if_neg Bool.false_ne_true, Config.tDebounceMs]

/-- Settles O48: the released iteration in Time mode. -/
theorem iterationShowsTheTime : Obligations.IterationShowsTheTime := by
  unfold Obligations.IterationShowsTheTime
  intro s inp rest hd hs hr hm
  refine ⟨awaitIdle s, _, _, _, awaitIdle_waits hd, execTimes_tkAdvance _ _, ticks_after_awaitIdle_busy hd _ rest,
    exec_render_showStep true inp.sample _, execTimes_tkAdvance _ _, ?_⟩
  rw [exec_arbIterate_released hs hr, hm]

/-- Settles O49: the released iteration in Voltage mode. -/
theorem iterationShowsTheVoltage : Obligations.IterationShowsTheVoltage := by
  unfold Obligations.IterationShowsTheVoltage
  intro s inp rest hd hs hr hm
  refine ⟨awaitIdle s, _, _, _, awaitIdle_waits hd, execTimes_tkAdvance _ _, ticks_after_awaitIdle_busy hd _ rest,
    exec_render_showStep false inp.sample _, execTimes_tkAdvance _ _, ?_⟩
  rw [exec_arbIterate_released hs hr, hm]

/-- Settles O50: the pressed iteration, in either mode; the clearing and the wait leave the block idle. -/
theorem iterationResetsTheClock : Obligations.IterationResetsTheClock := by
  unfold Obligations.IterationResetsTheClock
  intro s inp rest hd hs hr
  have hidle := ticks_after_awaitIdle_busy hd inp.ticksBeforeReset rest
  exact ⟨awaitIdle s, _, _, _, _, _, awaitIdle_waits hd, execTimes_tkAdvance _ _, exec_tkReset _, execTimes_tkAdvance _ _,
    (runTicks_busy _ _).trans hidle, exec_render_showStep inp.modeButton inp.sample _, execTimes_tkAdvance _ _,
    exec_arbIterate_pressed hs hr⟩

end Sys2Proof.Machine

namespace Sys2Proof.Machine

/-! Every operation completes (R160, R162): each operation answers the state its own row's rule names; no row answers a fault
or a refusal (logs 6, 15, 16, 17). -/

/-- An iteration answers in every state: it waits for the operation in progress and takes its inputs, scripted or the oracles'
(R150, logs 10, 29). -/
theorem exec_arbIterate (s : State) :
    exec .arbIterate s = .next (iterateWith (nextInputs (awaitIdle s)) (takeInputs (awaitIdle s))) := rfl

/-- Settles O9, operation by operation: a SHIFT_BIT or SHIFT_BYTE answers the state after its edges, due or not, and a data row
is a read of its table. -/
theorem everyOperationCompletes : Obligations.EveryOperationCompletes := by
  unfold Obligations.EveryOperationCompletes
  intro i s
  cases i with
  | encode d => exact ⟨_, exec_encode d s⟩
  | applyDp p => exact ⟨_, exec_applyDp p s⟩
  | encodeDp e d => exact ⟨_, exec_encodeDp e d s⟩
  | shiftBit b => exact ⟨_, execShiftBit_edges b s⟩
  | shiftByte w => exact ⟨_, execShiftByte_edges w s⟩
  | send seg sel => exact ⟨_, exec_send seg sel s⟩
  | decompose x v => exact ⟨_, exec_decompose x v s⟩
  | render en pos v => exact ⟨_, exec_render en pos v s⟩
  | tkAdvance => exact ⟨_, exec_tkAdvance s⟩
  | tkReset => exact ⟨_, exec_tkReset s⟩
  | arbIterate => exact ⟨_, exec_arbIterate s⟩
  | seg0 p | seg1 p | seg2 p | seg3 p | seg4 p | seg5 p | seg6 p | seg7 p | seg8 p | seg9 p =>
    exact ⟨readSegment _ p s, rfl⟩
  | dsel0 | dsel1 | dsel2 | dsel3 => exact ⟨readSelect _ s, rfl⟩

end Sys2Proof.Machine

namespace Sys2Proof.Machine

/-! A request whose word its row does not accept (log 2). -/

theorem runRequest_error {k : Select} {w : RequestWord} {r : Reject} (h : decode k w = .error r) (s : State) :
    runRequest k w s = .refused (refusalOf r) := by
  rw [runRequest, h]

/-- Settles O7: the step runs the request at the head, and either of the decoder's two refusals becomes the machine's own. -/
theorem stepRefusesWordsOfNoRow : Obligations.StepRefusesWordsOfNoRow := by
  unfold Obligations.StepRefusesWordsOfNoRow
  intro s k w rest hs
  constructor
  · intro hwide
    rw [step_request hs, runRequest_error hwide]
    rfl
  · intro hfixed
    rw [step_request hs, runRequest_error hfixed]
    rfl

end Sys2Proof.Machine
